-- ==== Sys2Proof/Word.lean ====
section
/-! DEFINITION. The widths of RTC-CORE's values and the shape shared by its two register files
(10_state.md rules R11, R12). -/

namespace Sys2Proof

/-- A byte: 8 bits, bit 0 the least significant (R8). Raw-image registers, `STATUS` and the command word. -/
abbrev Byte := BitVec 8

/-- A calendar-time register: `TW` = 32 bits, two's complement (R7, R11, decision D2). -/
abbrev Word := BitVec 32

/-- The seven positions of a register file, in the register order R7 fixes: index 0 to 6. -/
inductive Field where
  | sec | min | hour | wday | mday | mon | year
deriving DecidableEq, Repr, Inhabited

/-- One value per position: the register file `T` is `Fields Word`, the register file `R` and every
7-byte raw image is `Fields Byte`, the source's CalendarTime in plain integers is `Fields Int`. -/
structure Fields (α : Type) where
  sec  : α
  min  : α
  hour : α
  wday : α
  mday : α
  mon  : α
  year : α
deriving DecidableEq, Repr, Inhabited

/-- The raw register image: "a fixed 7-byte ordered sequence, one byte per register" (R12). -/
abbrev Image := Fields Byte

end Sys2Proof
end

