-- ==== Sys2Proof/Config.lean ====
section
/-! DEFINITION. What one instance of RTC-CORE fixes for its whole life and the spec leaves open (00_scope.md
rule R7, 10_state.md rule R27). Every constant below has no body: no proof can see its value, so a claim
holds for every choice, which is how 92_eei_decisions.md asks for these parameters to be taken. -/

namespace Sys2Proof

/-- The opaque type `BusAddr` (R7, D11): the block hands a value of it to the transport and never looks
inside. DESIGN CHOICE (log 2): a token, so that two addresses can be compared; the number means nothing. -/
structure BusAddr where
  token : Nat
deriving DecidableEq, Repr, Inhabited

/-- The two forms of the write transaction (R7, R85, D10). -/
inductive WrMode where
  | split
  | combined
deriving DecidableEq, Repr, Inhabited

/-- `DEV_ADDR`, the device's fixed bus address: OPEN (R7, R27, D11). Free (log 2). -/
opaque Config.devAddr : BusAddr

/-- `WR_MODE`, fixed per instance and never changed at run time: OPEN (R7, R85, D10). Free (log 3). -/
opaque Config.wrMode : WrMode

/-- `T_init`: the arbitrary but fixed contents of `T` after reset (R7, R26, D14). Free (log 1). -/
opaque Config.tInit : Field → Word

/-- `R_init`: the arbitrary but fixed contents of `R` after reset (R7, R26, D14). Free (log 1). -/
opaque Config.rInit : Field → Byte

end Sys2Proof
end

