-- ==== Sys2Proof/Machine/Port.lean ====
section
/-! DEFINITION. What crosses RTC-CORE's two ports, as data: register ids and actions on the host port
(10_state.md rule R13, 42_calendar_ops.md rules R99 to R101), transfer descriptors, submissions and the
transport's moves on the transport port (30_encoding.md rules R55, R56, 41_bus_sequencer.md rule R80), and
the events of the transaction history (R91). -/

namespace Sys2Proof.Machine

/-- The registers the host port reaches (R13). -/
inductive RegId where
  | t (f : Field)
  | r (f : Field)
  | status
deriving DecidableEq, Repr

/-- A value on the host port, at the width of the register it belongs to (R99, R100). -/
inductive RegValue where
  | word (v : Word)
  | byte (b : Byte)
deriving DecidableEq, Repr

/-- What reaches the block from outside other than the transport's answers: the three host-port actions
and the reset event. DESIGN CHOICE (log 13): a register id is a plain number, because the spec gives ids no width. -/
inductive Action where
  /-- `HRD reg` (R99). -/
  | hrd (id : Nat)
  /-- `HWR reg, v` (R100). -/
  | hwr (id : Nat) (v : RegValue)
  /-- `HCMD w` (R101). -/
  | hcmd (w : Byte)
  /-- The reset event (R120, R121). DESIGN CHOICE (log 9): it comes in the same list as the host's actions. -/
  | reset
deriving DecidableEq, Repr

/-- A transfer descriptor: direction, byte length and buffer (R55). The buffer of a read is where the
received bytes go, and is `BUF`. -/
inductive Descriptor where
  /-- `W(len, bytes)`, index 0 sent first. -/
  | write (len : Nat) (bytes : List Byte)
  /-- `Rd(len)`. -/
  | read (len : Nat)
deriving DecidableEq, Repr

/-- One submission: the device address and an ordered list of descriptors (R55). -/
structure Submission where
  dev  : BusAddr
  list : List Descriptor
deriving DecidableEq, Repr

/-- The transport's single answer to a submission (R80). The seven bytes of `ok` are those of the read
descriptor; for a submission without a read descriptor they mean nothing and nothing uses them (log 5). -/
inductive Answer where
  | ok (data : Image)
  | fail
deriving DecidableEq, Repr

/-- One move of the transport while the block waits (R80, R88, R121). The list of moves to come stands in
State: it is the oracle of R80, and a claim over every state is a claim over every such list. -/
inductive Move where
  /-- The transport says nothing yet: it "may take any length of time" (R80 point 5). -/
  | silent
  /-- An answer that belongs to a submission a reset made the block forget: ignored (R121, log 10). -/
  | late (a : Answer)
  /-- The answer to the submission in flight (R80 point 3). -/
  | answer (a : Answer)
deriving DecidableEq, Repr

/-- The result `res` of a completed submission (R80). -/
inductive Res where
  | ok
  | fail
deriving DecidableEq, Repr

/-- The two events R91 asks a model to record. `data` is present only where R80 defines it: a read that
completed with `OK`. -/
inductive Event where
  | submit (sub : Submission)
  | complete (res : Res) (data : Option Image)
deriving DecidableEq, Repr

/-- Index of a position in the register order: `T[i]`, `R[i]`, chip register index `0x00 + i` (R12, R30). -/
def fieldIndex : Field → Nat
  | .sec => 0
  | .min => 1
  | .hour => 2
  | .wday => 3
  | .mday => 4
  | .mon => 5
  | .year => 6

/-- The position with a given index, if there is one. -/
def fieldAt : Nat → Option Field
  | 0 => some .sec
  | 1 => some .min
  | 2 => some .hour
  | 3 => some .wday
  | 4 => some .mday
  | 5 => some .mon
  | 6 => some .year
  | _ => none

/-- The host-port id of a register (R13, D3): `T` from `0x00`, `R` from `0x08`, `STATUS` at `0x10`. -/
def regNumber : RegId → Nat
  | .t f => 0x00 + fieldIndex f
  | .r f => 0x08 + fieldIndex f
  | .status => 0x10

/-- The register an id names; the set of ids is closed (R13): `0x07`, `0x0F` and `0x11` upward name none. -/
def regOf (id : Nat) : Option RegId :=
  if id < 0x08 then (fieldAt id).map .t
  else if id < 0x10 then (fieldAt (id - 0x08)).map .r
  else if id = 0x10 then some .status
  else none

end Sys2Proof.Machine
end

