-- ==== Sys2Proof/Syntax.lean ====
section
/-! DEFINITION. The commands of RTC-CORE, whole: one constructor per row of spec/opcode_table.json
(30_encoding.md rule R50). No command carries an operand (R51) or an immediate (R52). -/

namespace Sys2Proof

/-- The six operations a command word can name (R50). -/
inductive Instr where
  /-- `DEC` (R67): decode `R` into `T`. -/
  | dec
  /-- `ENC` (R68): encode `T` into `R`. -/
  | enc
  /-- `RDREG` (R82): read the chip's seven registers into `R`. -/
  | rdreg
  /-- `WRREG` (R84): write `R` to the chip's seven registers. -/
  | wrreg
  /-- `RDTIME` (R95): read the chip's time into `R` and `T`. -/
  | rdtime
  /-- `WRTIME` (R96): set the chip's time from `T`, through `R`. -/
  | wrtime
deriving DecidableEq, Repr, Inhabited

end Sys2Proof
end

