-- ==== Sys2Proof/WellFormed.lean ====
section
/-! DEFINITION. Well-formedness. A command has no operand, so every `Instr` is well formed (30_encoding.md
rules R51, R52, R54); what can be ill formed is an action on the host port (10_state.md rule R13,
42_calendar_ops.md rule R100) and a record on the transport port (R55, R56). -/

namespace Sys2Proof

/-- R51: no command word carries an operand, so there is nothing to get wrong in one. -/
def Instr.wellFormed : Instr → Bool
  | .dec => true
  | .enc => true
  | .rdreg => true
  | .wrreg => true
  | .rdtime => true
  | .wrtime => true

namespace Machine

/-- An action of the host port: a read names a register (R13, R99), a write names a `T` or `R` register and
carries a value of its width (R100), and any 8-bit word may be issued as a command (R101). -/
def Action.wellFormed : Action → Bool
  | .hrd id => (regOf id).isSome
  | .hwr id v =>
    match regOf id, v with
    | some (.t _), .word _ => true
    | some (.r _), .byte _ => true
    | _, _ => false
  | .hcmd _ => true
  | .reset => true

/-- R55: a write descriptor's length is the number of its bytes. -/
def Descriptor.wellFormed : Descriptor → Bool
  | .write len bytes => bytes.length == len
  | .read _ => true

/-- The three shapes of R56: each starts by sending the register index `0x00`, and the data block is 7 bytes. -/
def Submission.wellFormed (sub : Submission) : Bool :=
  sub.list.all Descriptor.wellFormed &&
  match sub.list with
  | [.write 1 [0x00#8], .read 7] => true
  | [.write 1 [0x00#8], .write 7 _] => true
  | [.write 8 (b :: _)] => b == 0x00#8
  | _ => false

end Machine
end Sys2Proof
end

