-- ==== Sys2Proof/Decode.lean ====
section
/-! DEFINITION. The command word, format `CMD8` (30_encoding.md rules R49, R50, R53): the decoder, total on
all 256 words, and the encoder written from the same map. -/

namespace Sys2Proof

/-- Why a word names no operation (R53). The machine raises `IllegalCommand` for each. -/
inductive DecodeReject where
  /-- Some bit of the field `zero`, bits `[7:3]`, is set. -/
  | zeroFieldSet
  /-- The field `op`, bits `[2:0]`, is `000` or `111`. -/
  | noOperation
deriving DecidableEq, Repr

/-- The field `zero`, bits `[7:3]` (R49). -/
def zeroField (w : Byte) : BitVec 5 := w.extractLsb' 3 5

/-- The field `op`, bits `[2:0]` (R49). -/
def opField (w : Byte) : BitVec 3 := w.extractLsb' 0 3

/-- The operation map of R50. -/
def decodeOp (op : BitVec 3) : Except DecodeReject Instr :=
  match op.toNat with
  | 1 => .ok .dec
  | 2 => .ok .enc
  | 3 => .ok .rdreg
  | 4 => .ok .wrreg
  | 5 => .ok .rdtime
  | 6 => .ok .wrtime
  | _ => .error .noOperation

/-- The operation a command word names (R49, R50), or why it names none (R53). -/
def decodeWord (w : Byte) : Except DecodeReject Instr :=
  if zeroField w = 0#5 then decodeOp (opField w) else .error .zeroFieldSet

/-- The operation number of a command (R50). -/
def opNumber : Instr → BitVec 3
  | .dec => 0b001#3
  | .enc => 0b010#3
  | .rdreg => 0b011#3
  | .wrreg => 0b100#3
  | .rdtime => 0b101#3
  | .wrtime => 0b110#3

/-- The command word: five zeros above the operation number (R49). -/
def encodeWord (i : Instr) : Byte := 0b00000#5 ++ opNumber i

/-- The command word the opcode table's numbering gives: `nbits` bits of `w`, every bit above them zero.
A command is one byte, so a number that does not fit a byte is no command. -/
def tableWord (nbits w : Nat) : Option Byte :=
  if w % 2 ^ nbits < 256 then some (BitVec.ofNat 8 (w % 2 ^ nbits)) else none

/-- What the decoder reads from a row of spec/opcode_table.json. -/
def decodeTableWord (nbits w : Nat) : Option Instr :=
  match tableWord nbits w with
  | none => none
  | some b =>
    match decodeWord b with
    | .ok i => some i
    | .error _ => none

end Sys2Proof
end

