-- ==== Sys2Proof/Machine/State.lean ====
section
/-! DEFINITION. The state of RTC-CORE (10_state.md rules R10, R21, R26) and what lies at its two ports, the
reasons a step can stop, and the state after reset. Plain data throughout. -/

namespace Sys2Proof.Machine

/-- What a waiting operation still has to do when the transport answers (R82, R84, R90, R95, R96).
`WRREG` and `WRTIME` do the same from the submission on. -/
inductive Pending where
  /-- `RDREG`: on `OK` the bytes go to `R`. -/
  | readRaw
  /-- `RDTIME`: on `OK` the bytes go to `R` and, decoded, to `T`. -/
  | readTime
  /-- `WRREG`, `WRTIME`: only `STATUS` is left to write. -/
  | write
deriving DecidableEq, Repr

/-- `PHASE` (R16). `WAIT` exists exactly while a submission is in flight, so it carries that submission
(R21 (c)) and what is to be done with its answer. -/
inductive Phase where
  | idle
  | wait (todo : Pending) (sub : Submission)
deriving DecidableEq, Repr

/-- Why the machine would stop with a fault. There is no reason: nothing in the block traps (60_exceptions.md
rules R105, R109, R112) and the transport that never answers is a run that stays in `WAIT`, not a stop (R88). -/
inductive Fault where
deriving DecidableEq, Repr

/-- Why a step is refused. The last three are raised by the host port only, for what the spec says is no
action of the port; each is safe: the model stops where the spec defines nothing. -/
inductive Refusal where
  /-- Raised by an arm of `exec` whose instruction has no meaning yet. No arm raises it. Safe. -/
  | notModelled (mnemonic : String)
  /-- Raised by `HRD` or `HWR` with an id that names no register (R13, 93 U9, D16). Safe. -/
  | noSuchRegister (id : Nat)
  /-- Raised by `HWR` to `STATUS`, which the host cannot write (R13, R100, 93 U16, D17). Safe. -/
  | statusNotWritable
  /-- Raised by `HWR` whose value has not its register's width: R100 gives the action a value "of that
  register's width". Safe. -/
  | valueNotOfWidth (id : Nat)
deriving DecidableEq, Repr

/-- The whole machine. `t`, `r`, `status` are the architectural state of R10; `phase` and `buf` the hidden
state of R21; `history` the events of R91. `inbox` and `transport` are the two other agents of
00_scope.md section 6 as data: what the host will do and what the transport will answer; `returned` is what the
host has been answered. These last three are the model's own fields. -/
structure State where
  /-- `T[0..6]` (R11). -/
  t : Fields Word
  /-- `R[0..6]` (R12). -/
  r : Image
  /-- `STATUS` (R17). -/
  status : Byte
  /-- `PHASE` and the submission in flight (R16, R21). -/
  phase : Phase
  /-- `BUF`: `none` while it has no defined content (R21 (b), R26). -/
  buf : Option Image
  /-- The events of every transaction so far, oldest first (R91). -/
  history : List Event
  /-- The actions still to come on the host port, and resets, next first (R22, R37 (a)). -/
  inbox : List Action
  /-- The transport's moves still to come, next first (R80, R88). -/
  transport : List Move
  /-- What the host's reads have returned, oldest first (R99). -/
  returned : List (RegId × RegValue)
deriving DecidableEq, Repr

/-- The state after reset (R26, R120). `T` and `R` hold the free values `T_init` and `R_init` (log 1);
nothing has happened at either port and nothing waits there (log 5, log 6). -/
def State.reset : State where
  t := { sec := Config.tInit .sec, min := Config.tInit .min, hour := Config.tInit .hour,
         wday := Config.tInit .wday, mday := Config.tInit .mday, mon := Config.tInit .mon,
         year := Config.tInit .year }
  r := { sec := Config.rInit .sec, min := Config.rInit .min, hour := Config.rInit .hour,
         wday := Config.rInit .wday, mday := Config.rInit .mday, mon := Config.rInit .mon,
         year := Config.rInit .year }
  status := 0x00#8
  phase := .idle
  buf := none
  history := []
  inbox := []
  transport := []
  returned := []

end Sys2Proof.Machine
end

