-- ==== Sys2Proof/Machine/Flags.lean ====
section
/-! DEFINITION. `STATUS` and its field `CODE` (10_state.md rule R17, 60_exceptions.md rule R105). RTC-CORE has
no flags or condition codes (R19): the only condition an operation leaves behind is `STATUS.CODE`. -/

namespace Sys2Proof.Machine

/-- The error outcomes of a command (R105). Code 3 is never written (R17). -/
inductive StatusCode where
  | ok
  | transportFailure
  | illegalCmd
deriving DecidableEq, Repr

/-- The byte a code writes to `STATUS` (R17, D6). -/
def StatusCode.byte : StatusCode → Byte
  | .ok => 0x00#8
  | .transportFailure => 0x01#8
  | .illegalCmd => 0x02#8

/-- `STATUS` as it reads: bits `[7:2]` are reserved and "always read 0" (R17). -/
def statusRead (status : Byte) : Byte := status &&& 0x03#8

/-- The field `CODE`, bits `[1:0]` (R17). -/
def statusCode (status : Byte) : BitVec 2 := status.extractLsb' 0 2

end Sys2Proof.Machine
end

