-- ==== Sys2Proof/Machine/Operands.lean ====
section
/-! DEFINITION. The operands: positions of a register file, whole files (the only operands a command has,
30_encoding.md rule R51, 70_reset_and_hazards.md rule R126), single registers (the operands of the host port,
R99, R100), and one named update per field of State. -/

namespace Sys2Proof

/-- The value at a position. -/
def Fields.get {α : Type} (v : Fields α) : Field → α
  | .sec => v.sec
  | .min => v.min
  | .hour => v.hour
  | .wday => v.wday
  | .mday => v.mday
  | .mon => v.mon
  | .year => v.year

/-- The file with one position replaced; no register aliases another (R15). -/
def Fields.set {α : Type} (v : Fields α) (f : Field) (a : α) : Fields α :=
  match f with
  | .sec => { v with sec := a }
  | .min => { v with min := a }
  | .hour => { v with hour := a }
  | .wday => { v with wday := a }
  | .mday => { v with mday := a }
  | .mon => { v with mon := a }
  | .year => { v with year := a }

/-- The same function at every position. -/
def Fields.map {α β : Type} (g : α → β) (v : Fields α) : Fields β where
  sec := g v.sec
  min := g v.min
  hour := g v.hour
  wday := g v.wday
  mday := g v.mday
  mon := g v.mon
  year := g v.year

/-- The seven values in register order: the order of the bytes on the transport (R31 (b)). -/
def Fields.toList {α : Type} (v : Fields α) : List α :=
  [v.sec, v.min, v.hour, v.wday, v.mday, v.mon, v.year]

namespace Machine

def State.setT (s : State) (v : Fields Word) : State := { s with t := v }
def State.setR (s : State) (v : Image) : State := { s with r := v }
def State.setStatus (s : State) (c : StatusCode) : State := { s with status := c.byte }
def State.setPhase (s : State) (p : Phase) : State := { s with phase := p }
def State.setBuf (s : State) (b : Option Image) : State := { s with buf := b }
def State.setInbox (s : State) (l : List Action) : State := { s with inbox := l }
def State.setTransport (s : State) (l : List Move) : State := { s with transport := l }

/-- Append an event to the transaction history (R91). -/
def State.record (s : State) (e : Event) : State := { s with history := s.history ++ [e] }

/-- Hand a value back to the host (R99). -/
def State.answerHost (s : State) (id : RegId) (v : RegValue) : State :=
  { s with returned := s.returned ++ [(id, v)] }

/-- The value a register reads as, at its own width (R99). No register has a side effect on read (R15). -/
def readReg (s : State) : RegId → RegValue
  | .t f => .word (s.t.get f)
  | .r f => .byte (s.r.get f)
  | .status => .byte (statusRead s.status)

/-- `T[i] <- v` for one register (R9, R100). -/
def writeT (s : State) (f : Field) (v : Word) : State := s.setT (s.t.set f v)

/-- `R[i] <- b` for one register (R9, R100). -/
def writeR (s : State) (f : Field) (b : Byte) : State := s.setR (s.r.set f b)

end Machine
end Sys2Proof
end

