-- ==== Sys2Proof/Machine/Codec.lean ====
section
/-! DEFINITION. The register codec as functions: the BCD byte coding (40_codec.md rules R60 to R62) and the
image functions `decode` and `encode` (R63, R65, R66). Pure, total, and without a failure path (R69). -/

namespace Sys2Proof.Machine

/-- `bcd_decode` (R60): ten times the high nibble plus the low nibble, with no check of the digits (R72). -/
def bcdDecode (b : Byte) : Nat := 10 * (b >>> 4).toNat + (b &&& 0x0F#8).toNat

/-- The mask of each byte of the image: its payload bits (R45). The year has none applied, which is `0xFF`. -/
def payloadMask : Fields Byte where
  sec := 0x7F#8
  min := 0x7F#8
  hour := 0x3F#8
  wday := 0x07#8
  mday := 0x3F#8
  mon := 0x1F#8
  year := 0xFF#8

/-- A well-formed BCD byte has both nibbles in 0 to 9 (R46). -/
def bcdWellFormed (b : Byte) : Bool :=
  decide ((b.extractLsb' 4 4).toNat ≤ 9) && decide ((b.extractLsb' 0 4).toNat ≤ 9)

/-- `bcd_encode` (R61, R62): the source's formula on a non-negative number, of which a byte keeps the low
8 bits (`trunc8`, D12). -/
def bcdEncode (u : Nat) : Byte := BitVec.ofNat 8 (((u / 10) <<< 4) ||| (u % 10))

/-- `decode` (R63), in plain integers (R71), line for line. The hour is always read as 24-hour (R54, R127);
a weekday or month byte with an empty payload gives -1 (R64). -/
def decodeImage (raw : Image) : Fields Int where
  sec := bcdDecode (raw.sec &&& 0x7F#8)
  min := bcdDecode (raw.min &&& 0x7F#8)
  hour := bcdDecode (raw.hour &&& 0x3F#8)
  wday := (bcdDecode (raw.wday &&& 0x07#8) : Int) - 1
  mday := bcdDecode (raw.mday &&& 0x3F#8)
  mon := (bcdDecode (raw.mon &&& 0x1F#8) : Int) - 1
  year := (bcdDecode raw.year : Int) + 100

/-- An integer as a `T` register stores it: `v mod 2^TW` (R9). -/
def toWord (v : Int) : Word := BitVec.ofInt 32 v

/-- The decoded image as the register file `T` holds it (R67). -/
def decodeToT (raw : Image) : Fields Word := (decodeImage raw).map toWord

/-- `encode` on the register file `T` (R65, R66): the offsets wrap modulo `2^TW` (D13), each argument is read
as the unsigned pattern `u_TW` (D12), and no mask is applied (R47, C3). -/
def encodeTime (t : Fields Word) : Image where
  sec := bcdEncode t.sec.toNat
  min := bcdEncode t.min.toNat
  hour := bcdEncode t.hour.toNat
  wday := bcdEncode (t.wday + 1#32).toNat
  mday := bcdEncode t.mday.toNat
  mon := bcdEncode (t.mon + 1#32).toNat
  year := bcdEncode (t.year - 100#32).toNat

end Sys2Proof.Machine
end

