-- ==== Sys2Proof/Machine/Ops.lean ====
section
/-! DEFINITION. The shared operations: the submissions of the block (30_encoding.md rule R56, 20_memory.md
rule R44), raising an error (60_exceptions.md rules R106, R107, R112), submitting, the transport's turn and
completing (41_bus_sequencer.md rules R80 to R91), and the reset event (R120, R121). -/

namespace Sys2Proof.Machine

/-- `BLOCK_BASE` = `0x00`, the register index every transaction starts at (R7, R32). -/
def blockBase : Byte := 0x00#8

/-- `BLOCK_LEN` = 7 bytes (R7). -/
def blockLen : Nat := 7

/-- `ADDR_LEN` = 1 byte (R7). -/
def addrLen : Nat := 1

/-- The read transaction `MemRead(0x00, 7)`: it has one form only (R44, R56, R85). -/
def readSubmission : Submission where
  dev := Config.devAddr
  list := [.write addrLen [blockBase], .read blockLen]

/-- The write transaction `MemWrite(0x00, 7, v)` in either form (R44, R56, R85). -/
def writeSubmission (mode : WrMode) (v : Image) : Submission where
  dev := Config.devAddr
  list :=
    match mode with
    | .split => [.write addrLen [blockBase], .write blockLen v.toList]
    | .combined => [.write (addrLen + blockLen) (blockBase :: v.toList)]

/-- Whether an operation waits for the seven bytes of a read. -/
def Pending.reads : Pending → Bool
  | .readRaw => true
  | .readTime => true
  | .write => false

/-- Raising an error (R106, R107, R112): `STATUS.CODE` is written and `PHASE` is `IDLE`. Nothing is saved,
no mode changes, control goes nowhere; there is no return operation (R113). -/
def raiseError (c : StatusCode) (s : State) : State := (s.setStatus c).setPhase .idle

/-- Hand a submission to the transport (R86, R91): `PHASE <- WAIT`. A read starts with a fresh buffer
(R21 (b), R81). -/
def submit (todo : Pending) (sub : Submission) (s : State) : State :=
  let s := if todo.reads then s.setBuf none else s
  (s.setPhase (.wait todo sub)).record (.submit sub)

/-- What a read does with the seven bytes on `OK`: `BUF` is copied to `R` verbatim (R21 (b), R82). -/
def storeRaw (data : Image) (s : State) : State := (s.setBuf (some data)).setR data

/-- The register writes of an operation that the transport answered with `OK` (R82, R84, R95, R96). -/
def writeBack (todo : Pending) (data : Image) (s : State) : State :=
  match todo with
  | .readRaw => storeRaw data s
  | .readTime => (storeRaw data s).setT (decodeToT data)
  | .write => s

/-- The completion event (R91): the bytes are part of it only where R80 defines them. -/
def completion (todo : Pending) : Answer → Event
  | .ok data => .complete .ok (if todo.reads then some data else none)
  | .fail => .complete .fail none

/-- The end of a bus operation (R82, R84, R95, R96): on `OK` its register writes and `STATUS <- 0`; on `FAIL`
nothing received is visible, `STATUS <- 1`, and nothing is retried (R87, R97). -/
def complete (todo : Pending) (a : Answer) (s : State) : State :=
  let s := s.record (completion todo a)
  match a with
  | .ok data => ((writeBack todo data s).setStatus .ok).setPhase .idle
  | .fail => raiseError .transportFailure s

/-- The transport's turn while the block waits (R80, R88). Only the answer to the submission in flight ends
the wait; a transport with no move left never answers, and the block stays as it is for ever. -/
def transportTurn (s : State) : State :=
  match s.phase, s.transport with
  | .idle, _ => s
  | .wait _ _, [] => s
  | .wait _ _, .silent :: rest => s.setTransport rest
  | .wait _ _, .late _ :: rest => s.setTransport rest
  | .wait todo _, .answer a :: rest => complete todo a (s.setTransport rest)

/-- One whole bus transaction as far as the transport lets it go (R82, R84, R90): submit, then the
transport's turn. DESIGN CHOICE (log 7): an answer that is there at once is taken in the same step. -/
def busTransaction (todo : Pending) (sub : Submission) (s : State) : State :=
  transportTurn (submit todo sub s)

/-- The reset event in any phase (R26, R120, R121): the block's own state goes to its reset values, a
submission in flight is forgotten, no submission is made. What lies outside the block and what has already
happened stay: both ports' lists and both records (log 9). -/
def resetBlock (s : State) : State :=
  { State.reset with
    inbox := s.inbox, transport := s.transport, history := s.history, returned := s.returned }

end Sys2Proof.Machine
end

