-- ==== Sys2Proof/Machine/BusCommands.lean ====
section
/-! DEFINITION. The sequencer's two commands (41_bus_sequencer.md rules R82, R84). -/

namespace Sys2Proof.Machine

/-- `RDREG` (R82). -/
def execRdreg (s : State) : Host.Outcome State Fault Refusal :=
  .next (busTransaction .readRaw readSubmission s)

/-- `WRREG` (R84): the bytes sent are `R` as it stands (R47). -/
def execWrreg (s : State) : Host.Outcome State Fault Refusal :=
  .next (busTransaction .write (writeSubmission Config.wrMode s.r) s)

end Sys2Proof.Machine
end

