-- ==== Sys2Proof/Machine/CalendarCommands.lean ====
section
/-! DEFINITION. The two operations the source exposes, as commands (42_calendar_ops.md rules R95, R96). -/

namespace Sys2Proof.Machine

/-- `RDTIME` (R95). -/
def execRdtime (s : State) : Host.Outcome State Fault Refusal :=
  .next (busTransaction .readTime readSubmission s)

/-- `WRTIME` (R96): `R` is written before the submission, which carries it. -/
def execWrtime (s : State) : Host.Outcome State Fault Refusal :=
  .next (busTransaction .write (writeSubmission Config.wrMode (encodeTime s.t)) (s.setR (encodeTime s.t)))

end Sys2Proof.Machine
end

