-- ==== Sys2Proof/Machine/CodecCommands.lean ====
section
/-! DEFINITION. The codec's two commands (40_codec.md rules R67, R68). Neither can fail (R69), neither makes a
submission (R86), and `PHASE` stays as it is (R16). -/

namespace Sys2Proof.Machine

/-- `DEC` (R67). -/
def execDec (s : State) : Host.Outcome State Fault Refusal :=
  .next ((s.setT (decodeToT s.r)).setStatus .ok)

/-- `ENC` (R68). -/
def execEnc (s : State) : Host.Outcome State Fault Refusal :=
  .next ((s.setR (encodeTime s.t)).setStatus .ok)

end Sys2Proof.Machine
end

