-- ==== Sys2Proof/Machine/Dispatch.lean ====
section
/-! DEFINITION. One arm per command (30_encoding.md rule R50). -/

namespace Sys2Proof.Machine

def exec (i : Instr) (s : State) : Host.Outcome State Fault Refusal :=
  match i with
  | .dec => Sys2Proof.Machine.execDec s
  | .enc => Sys2Proof.Machine.execEnc s
  | .rdreg => Sys2Proof.Machine.execRdreg s
  | .wrreg => Sys2Proof.Machine.execWrreg s
  | .rdtime => Sys2Proof.Machine.execRdtime s
  | .wrtime => Sys2Proof.Machine.execWrtime s

end Sys2Proof.Machine
end

