-- ==== Sys2Proof/Machine/HostPort.lean ====
section
/-! DEFINITION. The host port (42_calendar_ops.md rules R99 to R101), who moves next (10_state.md rule R22,
41_bus_sequencer.md rule R88), and the script notation's lines and shorthands as actions (R57, R58). -/

namespace Sys2Proof.Machine

/-- `HRD reg` (R99): returns the register's value, changes no register. -/
def hostRead (id : Nat) (s : State) : Host.Outcome State Fault Refusal :=
  match regOf id with
  | some reg => .next (s.answerHost reg (readReg s reg))
  | none => .refused (.noSuchRegister id)

/-- `HWR reg, v` (R100): writes one `T` or `R` register, checks no range and leaves `STATUS` alone. -/
def hostWrite (id : Nat) (v : RegValue) (s : State) : Host.Outcome State Fault Refusal :=
  match regOf id, v with
  | some (.t f), .word x => .next (writeT s f x)
  | some (.r f), .byte b => .next (writeR s f b)
  | some (.t _), .byte _ => .refused (.valueNotOfWidth id)
  | some (.r _), .word _ => .refused (.valueNotOfWidth id)
  | some .status, _ => .refused .statusNotWritable
  | none, _ => .refused (.noSuchRegister id)

/-- `HCMD w` (R101): the word is checked first (R111); it names an operation, which runs, or raises
`IllegalCommand` (R53, R107). The word is not stored (R18). -/
def hostCommand (w : Byte) (s : State) : Host.Outcome State Fault Refusal :=
  match decodeWord w with
  | .ok i => exec i s
  | .error _ => .next (raiseError .illegalCmd s)

/-- One action, taken off the inbox already. -/
def performAction (a : Action) (s : State) : Host.Outcome State Fault Refusal :=
  match a with
  | .hrd id => hostRead id s
  | .hwr id v => hostWrite id v s
  | .hcmd w => hostCommand w s
  | .reset => .next (resetBlock s)

/-- The next action, if the block takes one now: in `IDLE` any action, in `WAIT` only the reset event, for
the host port is closed (R16, R22, R121). -/
def acceptedAction (s : State) : Option (Action × List Action) :=
  match s.phase, s.inbox with
  | _, [] => none
  | _, .reset :: rest => some (.reset, rest)
  | .idle, a :: rest => some (a, rest)
  | .wait _ _, _ :: _ => none

/-- One step of the machine: the accepted action, or else the transport's turn, which in `IDLE` is nothing:
the block does nothing until the host acts (R120). -/
def machineStep (s : State) : Host.Outcome State Fault Refusal :=
  match acceptedAction s with
  | some (a, rest) => performAction a (s.setInbox rest)
  | none => .next (transportTurn s)

/-- The line `hrd <reg>` (R57). -/
def hrdLine (reg : RegId) : Action := .hrd (regNumber reg)

/-- The line `hwr <reg>, <value>` for a `T` register (R57): a decimal, negative allowed, as its pattern. -/
def hwrTLine (f : Field) (v : Int) : Action := .hwr (regNumber (.t f)) (.word (toWord v))

/-- The line `hwr <reg>, <value>` for an `R` register (R57). -/
def hwrRLine (f : Field) (b : Byte) : Action := .hwr (regNumber (.r f)) (.byte b)

/-- The line `cmd <mnemonic>` (R57). The line `cmd <numeral>` is `Action.hcmd` itself. -/
def cmdLine (i : Instr) : Action := .hcmd (encodeWord i)

/-- The shorthand `settime s, mi, h, wd, d, mo, y` (R58). -/
def settime (v : Fields Int) : List Action :=
  [hwrTLine .sec v.sec, hwrTLine .min v.min, hwrTLine .hour v.hour, hwrTLine .wday v.wday,
    hwrTLine .mday v.mday, hwrTLine .mon v.mon, hwrTLine .year v.year]

/-- The shorthand `setraw b0, ..., b6` (R58). -/
def setraw (v : Image) : List Action :=
  [hwrRLine .sec v.sec, hwrRLine .min v.min, hwrRLine .hour v.hour, hwrRLine .wday v.wday,
    hwrRLine .mday v.mday, hwrRLine .mon v.mon, hwrRLine .year v.year]

end Sys2Proof.Machine
end

