-- ==== Sys2Proof/Machine/Step.lean ====
section
/-! DEFINITION. One step, and how the host places the command that the next step runs. RTC-CORE fetches
nothing from a memory (10_state.md rule R16, 20_memory.md rule R41): a command comes from the command port. -/

namespace Sys2Proof.Machine

/-- One step of the machine (`machineStep`). -/
def step (s : State) : Host.Outcome State Fault Refusal := machineStep s

/-- The command word of a table row presented at the command port, first in line, with the port open (R18,
R101, log 6). A number that is no 8-bit word presents nothing. -/
def State.withFetchWord (s : State) (nbits w : Nat) : State :=
  match tableWord nbits w with
  | some b => { s with inbox := .hcmd b :: s.inbox, phase := .idle }
  | none => s

end Sys2Proof.Machine
end

