-- ==== Sys2Proof/Safety.lean ====
section
/-! DEFINITION. The terms claims are stated in: the contract of a calendar time (10_state.md rule R11), what
the transaction history says (41_bus_sequencer.md rules R91, R92), and the invariant of the machine. -/

namespace Sys2Proof.Machine

/-- Every field lies in its valid range (R11). -/
def inContract (t : Fields Word) : Prop :=
  (0 ≤ t.sec.toInt ∧ t.sec.toInt ≤ 59) ∧ (0 ≤ t.min.toInt ∧ t.min.toInt ≤ 59) ∧
  (0 ≤ t.hour.toInt ∧ t.hour.toInt ≤ 23) ∧ (0 ≤ t.wday.toInt ∧ t.wday.toInt ≤ 6) ∧
  (1 ≤ t.mday.toInt ∧ t.mday.toInt ≤ 31) ∧ (0 ≤ t.mon.toInt ∧ t.mon.toInt ≤ 11) ∧
  (100 ≤ t.year.toInt ∧ t.year.toInt ≤ 199)

/-- `u_TW(v)`: the `TW`-bit pattern of an integer, read as an unsigned number (R9). -/
def patternOf (v : Int) : Nat := (v % 2 ^ 32).toNat

/-- R62's second line as a number: tens digit modulo 16 above the units digit. -/
def truncatedBcd (u : Nat) : Nat := 16 * (u / 10 % 16) + u % 10

/-- The source's end-to-end example (95_test_vectors.md section 1.6): the image ... -/
def exampleImage : Image :=
  { sec := 0x45#8, min := 0x30#8, hour := 0x21#8, wday := 0x03#8, mday := 0x15#8, mon := 0x07#8,
    year := 0x23#8 }

/-- ... and the time it stands for. -/
def exampleTime : Fields Word :=
  { sec := 45#32, min := 30#32, hour := 21#32, wday := 2#32, mday := 15#32, mon := 6#32, year := 123#32 }

/-- The images that `encode(decode(raw))` gives back unchanged (R77 (c)): no reserved bit set, every units
digit at most 9. -/
def canonicalImage (raw : Image) : Prop :=
  ∀ f : Field, raw.get f &&& payloadMask.get f = raw.get f ∧ ((raw.get f).extractLsb' 0 4).toNat ≤ 9

/-- A submission the block makes: the read, or the write of some image in the instance's form (R56). -/
def madeByBlock (sub : Submission) : Prop :=
  sub = readSubmission ∨ ∃ v : Image, sub = writeSubmission Config.wrMode v

/-- The bytes the device is sent, in order: those of the write descriptors (R92). -/
def bytesSent (sub : Submission) : List Byte :=
  sub.list.flatMap fun
    | .write _ bytes => bytes
    | .read _ => []

/-- The submissions of a history, in order. -/
def submissionsOf (h : List Event) : List Submission :=
  h.filterMap fun
    | .submit sub => some sub
    | .complete _ _ => none

/-- The submission that is open after an event: a `Submit` opens one, a `Complete` closes it (R91). -/
def openAfter (_ : Option Submission) : Event → Option Submission
  | .submit sub => some sub
  | .complete _ _ => none

/-- Whether an event may stand where `o` is open: only the block's own submissions are submitted (R56); a
completion answers the open one, with seven bytes exactly when that is a read that ended `OK` (R80). A
submission may replace an open one: a reset made the block forget that (R121). -/
def eventFits (o : Option Submission) : Event → Prop
  | .submit sub => madeByBlock sub
  | .complete res data =>
    match o with
    | none => False
    | some sub => data.isSome = true ↔ (res = .ok ∧ sub = readSubmission)

/-- A history in which every event stands where it may. -/
def historyFits : Option Submission → List Event → Prop
  | _, [] => True
  | o, e :: rest => eventFits o e ∧ historyFits (openAfter o e) rest

/-- The submission left open by a history, if any. -/
def openIn (h : List Event) : Option Submission := h.foldl openAfter none

/-- The submission a waiting operation has in flight (R56): for a write, with the copy of `R` taken at
submission, which `R` still equals because the host port is closed (R21 (c)). -/
def submissionFor (todo : Pending) (r : Image) : Submission :=
  if todo.reads then readSubmission else writeSubmission Config.wrMode r

/-- The invariant of the machine: `STATUS` holds one of the three codes and nothing else (R17); while the
block waits, the submission in flight is the one its operation makes (R21, R56), a read has nothing in its
buffer yet (R21 (b)), and the history ends with that submission open (R91); the history is one R91 allows. -/
structure State.Inv (s : State) : Prop where
  status : ∃ c : StatusCode, s.status = c.byte
  inFlight : ∀ todo sub, s.phase = .wait todo sub → sub = submissionFor todo s.r
  freshBuf : ∀ todo sub, s.phase = .wait todo sub → todo.reads = true → s.buf = none
  openSub : ∀ todo sub, s.phase = .wait todo sub → openIn s.history = some sub
  history : historyFits none s.history

/-- The seven bytes after the register index, as an image. -/
def imageOfBytes : List Byte → Option Image
  | [_, b0, b1, b2, b3, b4, b5, b6] =>
    some { sec := b0, min := b1, hour := b2, wday := b3, mday := b4, mon := b5, year := b6 }
  | _ => none

/-- The image a device's registers hold after one completed transaction, where it is known. An `OK` write leaves
the bytes submitted (R91); an `OK` read leaves what it returned (R34 (b)). DESIGN CHOICE (log 23): after any
transaction that failed, a READ as well as a write, the registers are any value; 93 U7 leaves a device model the
choice between that and "unchanged". For bytes of 93 U5 the `OK` write follows R91 (log 23). -/
def chipAfter (sub : Submission) (data : Option Image) : Res → Option Image
  | .ok => if sub = readSubmission then data else imageOfBytes (bytesSent sub)
  | .fail => none

/-- R91: a history is consistent with an ideal device that starts at `chip` (`none`: any value) when every read
that completed with `OK` returned what the device's registers held. A submission that a reset made the block
forget, still open when the next one comes, may have been carried out wholly, partly or not at all: the registers
are any value after it (R121, 93 U15; that it is over by then is log 23). The device is not part of RTC-CORE
(R5); this is a premise a claim about it must state. -/
def deviceConsistent (chip : Option Image) : Option Submission → List Event → Prop
  | _, [] => True
  | none, .submit sub :: rest => deviceConsistent chip (some sub) rest
  | some _, .submit sub :: rest => deviceConsistent none (some sub) rest
  | none, .complete _ _ :: rest => deviceConsistent chip none rest
  | some sub, .complete res data :: rest =>
    (∀ d held, data = some d → chip = some held → d = held) ∧
      deviceConsistent (chipAfter sub data res) none rest

/-- The block takes the action `a` in its next step (R22, R121). -/
def takes (s : State) (a : Action) : Prop := ∃ rest, acceptedAction s = some (a, rest)

/-- The transport's next move is the answer `a` to the submission in flight (R80). -/
def answers (s : State) (a : Answer) : Prop := s.transport.head? = some (.answer a)

/-- No reset is next at the block, so that in `WAIT` only the transport can act (R88, R121). -/
def noResetNext (s : State) : Prop := s.inbox.head? ≠ some .reset

/-- The transport answers with `a` after `n` moves that are no answer (R80 points 3 and 5); and where there is
something to wait for, no reset is next. -/
def answersAfter (s : State) (n : Nat) (a : Answer) : Prop :=
  (∀ b : Answer, Move.answer b ∉ s.transport.take n) ∧ s.transport[n]? = some (.answer a) ∧
    (n = 0 ∨ noResetNext s)

/-- A transport that never answers the submission in flight: none of its moves to come is an answer (R88). -/
def neverAnswers (moves : List Move) : Prop := ∀ a : Answer, Move.answer a ∉ moves

end Sys2Proof.Machine
end

