-- ==== Sys2Proof/Certificates/Slice0/Obligations.lean ====
section
/-! DEFINITION. The statements for the provers. Their forms are the model's: the transport is the list of its
moves to come (41_bus_sequencer.md rule R80, log 5), the host the list of its actions to come (log 6), and what
a host read returns is appended to a record (log 16). A bus command looks at the first move in the step that
submits (log 7), so an answer that comes after `n` other moves ends it `n` steps later. -/

open Sys2Proof Sys2Proof.Machine

/-! ### The command word (30_encoding.md) -/

/-- R50: the operation map, word by word, with the two unused operation numbers illegal. -/
def Obligations.CommandWordsFollowTheMap : Prop :=
  decodeWord 0b00000001#8 = .ok .dec ∧ decodeWord 0b00000010#8 = .ok .enc ∧
  decodeWord 0b00000011#8 = .ok .rdreg ∧ decodeWord 0b00000100#8 = .ok .wrreg ∧
  decodeWord 0b00000101#8 = .ok .rdtime ∧ decodeWord 0b00000110#8 = .ok .wrtime ∧
  decodeWord 0b00000000#8 = .error .noOperation ∧ decodeWord 0b00000111#8 = .error .noOperation

/-- Decoding is the inverse of encoding on the whole command space: a word decodes to a command exactly when
it is that command's encoding; and the same through the opcode table's numbering. -/
def Obligations.DecodeInvertsEncode : Prop :=
  (∀ (w : Byte) (i : Instr), decodeWord w = .ok i ↔ w = encodeWord i) ∧
  (∀ i : Instr, i.wellFormed = true → decodeTableWord 8 (encodeWord i).toNat = some i)

/-- R101 for a legal word, and the host's placement of one (`withFetchWord`, the model's own, log 6): with the
port open, a step is `exec` of the command the word names, at the state whose inbox has lost the action; while
the block waits the action stays. -/
def Obligations.StepRunsTheDecodedCommand : Prop :=
  (∀ (s : State) (w : Byte) (i : Instr) (rest : List Action),
    s.phase = .idle → s.inbox = .hcmd w :: rest → decodeWord w = .ok i →
      step s = exec i { s with inbox := rest }) ∧
  (∀ (s : State) (i : Instr),
    step (s.withFetchWord 8 (encodeWord i).toNat) = exec i { s with phase := .idle }) ∧
  (∀ (s : State) (w : Byte) (rest : List Action) (todo : Pending) (sub : Submission),
    s.phase = .wait todo sub → s.inbox = .hcmd w :: rest →
      ∃ t, step s = .next t ∧ t.inbox = s.inbox ∧ submissionsOf t.history = submissionsOf s.history)

/-- R53, R107: a word with `op` = `000` or `111`, or with any of bits `[7:3]` set, only sets `STATUS` to 2;
there are 250 such words, and every other word names an operation. -/
def Obligations.IllegalWordOnlySetsStatus : Prop :=
  (∀ (s : State) (w : Byte) (rest : List Action),
    s.phase = .idle → s.inbox = .hcmd w :: rest →
    (w.extractLsb' 0 3 = 0b000#3 ∨ w.extractLsb' 0 3 = 0b111#3 ∨ w.extractLsb' 3 5 ≠ 0#5) →
      step s = .next { s with inbox := rest, status := 0x02#8 }) ∧
  (∀ w : Byte, ¬(w.extractLsb' 0 3 = 0b000#3 ∨ w.extractLsb' 0 3 = 0b111#3 ∨ w.extractLsb' 3 5 ≠ 0#5) →
    ∃ i : Instr, decodeWord w = .ok i) ∧
  ((List.range 256).filter fun n => (decodeWord (BitVec.ofNat 8 n)).toBool = false).length = 250

/-- No command stops: whatever the state, each of the six ends in a next state. -/
def Obligations.EveryCommandHasANextState : Prop :=
  ∀ (i : Instr) (s : State), ∃ t, exec i s = .next t

/-! ### The codec's byte functions (40_codec.md section 1) -/

/-- `bcd_decode` on every byte: the formula, the range 0 to 165 with both ends, one value for each well-formed
byte, and the spec's own inference that `b` and `b + 6` agree when the units digit is malformed. -/
def Obligations.BcdDecodeIsTotal : Prop :=
  (∀ b : Byte, bcdDecode b = 10 * (b.extractLsb' 4 4).toNat + (b.extractLsb' 0 4).toNat ∧ bcdDecode b ≤ 165) ∧
  bcdDecode 0x00#8 = 0 ∧ bcdDecode 0xFF#8 = 165 ∧ bcdDecode 0x59#8 = 59 ∧ bcdDecode 0x7F#8 = 85 ∧
  (∀ b : Byte, bcdWellFormed b = true → bcdDecode b ≤ 99) ∧
  (∀ v : Nat, v ≤ 99 → ∃ b : Byte, (bcdWellFormed b = true ∧ bcdDecode b = v) ∧
    ∀ c : Byte, bcdWellFormed c = true → bcdDecode c = v → c = b) ∧
  (∀ b : Byte, 0xA ≤ (b.extractLsb' 0 4).toNat → (b.extractLsb' 4 4).toNat ≤ 0xE →
    bcdDecode (b + 6#8) = bcdDecode b)

/-- R61: in contract the result is the well-formed byte with the number's two decimal digits. -/
def Obligations.BcdEncodeInContract : Prop :=
  (∀ u : Nat, u ≤ 99 → ((bcdEncode u).extractLsb' 4 4).toNat = u / 10 ∧
    ((bcdEncode u).extractLsb' 0 4).toNat = u % 10 ∧ bcdWellFormed (bcdEncode u) = true) ∧
  bcdEncode 59 = 0x59#8 ∧ bcdEncode 7 = 0x07#8 ∧ bcdEncode 0 = 0x00#8 ∧ bcdEncode 99 = 0x99#8

/-- R62: the total definition, its three bands and its examples. -/
def Obligations.BcdEncodeOutOfContract : Prop :=
  (∀ u : Nat, u ≤ 2 ^ 32 - 1 →
    (bcdEncode u).toNat = (((u / 10) <<< 4) ||| (u % 10)) % 256 ∧
    (bcdEncode u).toNat = (((u / 10) % 16) <<< 4) ||| (u % 10) ∧
    ((bcdEncode u).extractLsb' 0 4).toNat = u % 10) ∧
  (∀ u : Nat, 100 ≤ u → u ≤ 159 → (bcdEncode u).toNat = ((u / 10) <<< 4) ||| (u % 10) ∧
    0xA ≤ ((bcdEncode u).extractLsb' 4 4).toNat) ∧
  (∀ u : Nat, 160 ≤ u → 255 < (((u / 10) <<< 4) ||| (u % 10))) ∧
  bcdEncode 100 = 0xA0#8 ∧ bcdEncode 159 = 0xF9#8 ∧ bcdEncode 160 = 0x00#8 ∧ bcdEncode 255 = 0x95#8 ∧
  bcdEncode 256 = 0x96#8 ∧ bcdEncode 1000 = 0x40#8 ∧ bcdEncode (2 ^ 32 - 1) = 0x95#8

/-- R74 with its widening: `bcd_decode` undoes `bcd_encode` up to 159 and first fails at 160; the other way
round it holds for well-formed bytes and fails for `0x0A`. The widening is the spec's own inference. -/
def Obligations.BcdRoundTrips : Prop :=
  (∀ v : Nat, v ≤ 159 → bcdDecode (bcdEncode v) = v) ∧ bcdDecode (bcdEncode 160) ≠ 160 ∧
  (∀ b : Byte, bcdWellFormed b = true → bcdEncode (bcdDecode b) = b) ∧ bcdEncode (bcdDecode 0x0A#8) = 0x10#8

/-! ### The codec's commands and properties (40_codec.md sections 2 to 5) -/

/-- R67: `DEC` on every image. The digits are given by their places in each byte (R45), the -1 of an empty
weekday or month payload by its pattern. -/
def Obligations.DecWritesTheDecodedTime : Prop :=
  decodeWord 0x01#8 = .ok .dec ∧
  (∀ s : State, exec .dec s = .next { s with t := decodeToT s.r, status := 0x00#8 }) ∧
  (∀ raw : Image,
    (decodeToT raw).sec.toInt = 10 * (raw.sec.extractLsb' 4 3).toNat + (raw.sec.extractLsb' 0 4).toNat ∧
    (decodeToT raw).min.toInt = 10 * (raw.min.extractLsb' 4 3).toNat + (raw.min.extractLsb' 0 4).toNat ∧
    (decodeToT raw).hour.toInt = 10 * (raw.hour.extractLsb' 4 2).toNat + (raw.hour.extractLsb' 0 4).toNat ∧
    (decodeToT raw).wday.toInt = ((raw.wday.extractLsb' 0 3).toNat : Int) - 1 ∧
    (decodeToT raw).mday.toInt = 10 * (raw.mday.extractLsb' 4 2).toNat + (raw.mday.extractLsb' 0 4).toNat ∧
    (decodeToT raw).mon.toInt =
      10 * ((raw.mon.extractLsb' 4 1).toNat : Int) + (raw.mon.extractLsb' 0 4).toNat - 1 ∧
    (decodeToT raw).year.toInt =
      10 * ((raw.year.extractLsb' 4 4).toNat : Int) + (raw.year.extractLsb' 0 4).toNat + 100 ∧
    (raw.wday &&& 0x07#8 = 0#8 → (decodeToT raw).wday = 0xFFFFFFFF#32) ∧
    (raw.mon &&& 0x1F#8 = 0#8 → (decodeToT raw).mon = 0xFFFFFFFF#32)) ∧
  decodeToT exampleImage = exampleTime

/-- R68 with the arguments of R66: `ENC` on every time. Each argument is the unsigned pattern of the field with
its offset, and each byte is R62's. -/
def Obligations.EncWritesTheEncodedImage : Prop :=
  decodeWord 0x02#8 = .ok .enc ∧
  (∀ s : State, exec .enc s = .next { s with r := encodeTime s.t, status := 0x00#8 }) ∧
  (∀ t : Fields Word,
    (encodeTime t).sec.toNat = truncatedBcd (patternOf t.sec.toInt) ∧
    (encodeTime t).min.toNat = truncatedBcd (patternOf t.min.toInt) ∧
    (encodeTime t).hour.toNat = truncatedBcd (patternOf t.hour.toInt) ∧
    (encodeTime t).wday.toNat = truncatedBcd (patternOf (t.wday.toInt + 1)) ∧
    (encodeTime t).mday.toNat = truncatedBcd (patternOf t.mday.toInt) ∧
    (encodeTime t).mon.toNat = truncatedBcd (patternOf (t.mon.toInt + 1)) ∧
    (encodeTime t).year.toNat = truncatedBcd (patternOf (t.year.toInt - 100)) ∧
    (t.sec = 80#32 → (encodeTime t).sec = 0x80#8) ∧
    (t.wday = 0xFFFFFFFF#32 → (encodeTime t).wday = 0x00#8) ∧
    (t.year = 99#32 → (encodeTime t).year = 0x95#8) ∧ (t.year = 0#32 → (encodeTime t).year = 0xF6#8) ∧
    (t.wday = 0x7FFFFFFF#32 → (encodeTime t).wday = 0xC8#8)) ∧
  encodeTime exampleTime = exampleImage

/-- The frame of `DEC` and `ENC`: everything but the destination file and `STATUS` stays, and no submission is
made. -/
def Obligations.CodecCommandsFrame : Prop :=
  ∀ s t : State,
    (exec .dec s = .next t → t.r = s.r) ∧ (exec .enc s = .next t → t.t = s.t) ∧
    ((exec .dec s = .next t ∨ exec .enc s = .next t) →
      t.phase = s.phase ∧ t.buf = s.buf ∧ t.history = s.history ∧ t.inbox = s.inbox ∧
      t.transport = s.transport ∧ t.returned = s.returned)

/-- R69: the codec never changes an outcome. `DEC` and `ENC` end with 0; with the transport's answer given,
`RDTIME` ends with the status of `RDREG` and `WRTIME` with that of `WRREG`, whatever the bytes and the time. -/
def Obligations.CodecRaisesNoError : Prop :=
  (∀ s : State, ∃ t u : State, exec .dec s = .next t ∧ exec .enc s = .next u ∧ t.status = 0x00#8 ∧
    u.status = 0x00#8) ∧
  (∀ (s : State) (a : Answer), answers s a →
    ∃ t1 t2 t3 t4 : State, exec .rdreg s = .next t1 ∧ exec .rdtime s = .next t2 ∧ exec .wrreg s = .next t3 ∧
      exec .wrtime s = .next t4 ∧ t2.status = t1.status ∧ t4.status = t3.status ∧
      t1.status = (match a with | .ok _ => 0x00#8 | .fail => 0x01#8) ∧ t3.status = t1.status)

/-- The results of `decode` over all inputs: the range of each field, every second, minute and hour in it
reached, and the only payloads that give -1. The table is the spec's own enumeration. -/
def Obligations.DecodeRanges : Prop :=
  (∀ raw : Image,
    (0 ≤ (decodeImage raw).sec ∧ (decodeImage raw).sec ≤ 85) ∧
    (0 ≤ (decodeImage raw).min ∧ (decodeImage raw).min ≤ 85) ∧
    (0 ≤ (decodeImage raw).hour ∧ (decodeImage raw).hour ≤ 45) ∧
    (-1 ≤ (decodeImage raw).wday ∧ (decodeImage raw).wday ≤ 6) ∧
    (0 ≤ (decodeImage raw).mday ∧ (decodeImage raw).mday ≤ 45) ∧
    (-1 ≤ (decodeImage raw).mon ∧ (decodeImage raw).mon ≤ 24) ∧
    (100 ≤ (decodeImage raw).year ∧ (decodeImage raw).year ≤ 265)) ∧
  (∀ v : Nat, v ≤ 85 → ∃ raw : Image, (decodeImage raw).sec = v ∧ (decodeImage raw).min = v) ∧
  (∀ v : Nat, v ≤ 45 → ∃ raw : Image, (decodeImage raw).hour = v) ∧
  (∀ raw : Image, (decodeImage raw).wday = -1 ↔ raw.wday &&& 0x07#8 = 0#8) ∧
  (∀ raw : Image, (decodeImage raw).mon = -1 ↔ raw.mon &&& 0x1F#8 = 0#8)

/-- Every decoded field fits ten bits, so the `T` registers hold it without loss: a `T` register read as a
signed number is the decoded integer. -/
def Obligations.DecodedTimeIsStoredWhole : Prop :=
  ∀ (raw : Image) (f : Field),
    ((decodeToT raw).get f).toInt = (decodeImage raw).get f ∧
    (BitVec.ofInt 10 ((decodeImage raw).get f)).toInt = (decodeImage raw).get f

/-- R75: two images that agree inside the masks decode to the same time. -/
def Obligations.DecodeIgnoresReservedBits : Prop :=
  ∀ raw raw' : Image,
    (∀ f : Field, raw'.get f &&& payloadMask.get f = raw.get f &&& payloadMask.get f) →
      decodeImage raw' = decodeImage raw

/-- The round trip through the image, field by field, on exactly the sets of R73's table. The sets wider than
the contract are the spec's own enumeration. -/
def Obligations.RoundTripSetsAreExact : Prop :=
  ∀ t : Fields Word,
    ((decodeToT (encodeTime t)).sec = t.sec ↔ 0 ≤ t.sec.toInt ∧ t.sec.toInt ≤ 79) ∧
    ((decodeToT (encodeTime t)).min = t.min ↔ 0 ≤ t.min.toInt ∧ t.min.toInt ≤ 79) ∧
    ((decodeToT (encodeTime t)).hour = t.hour ↔ 0 ≤ t.hour.toInt ∧ t.hour.toInt ≤ 39) ∧
    ((decodeToT (encodeTime t)).wday = t.wday ↔ -1 ≤ t.wday.toInt ∧ t.wday.toInt ≤ 6) ∧
    ((decodeToT (encodeTime t)).mday = t.mday ↔ 0 ≤ t.mday.toInt ∧ t.mday.toInt ≤ 39) ∧
    ((decodeToT (encodeTime t)).mon = t.mon ↔ -1 ≤ t.mon.toInt ∧ t.mon.toInt ≤ 18) ∧
    ((decodeToT (encodeTime t)).year = t.year ↔ 100 ≤ t.year.toInt ∧ t.year.toInt ≤ 259)

/-- `DEC` after `ENC` restores every in-contract time exactly. -/
def Obligations.DecAfterEncRestoresTheTime : Prop :=
  ∀ s : State, inContract s.t →
    ∃ s1 s2 : State, exec .enc s = .next s1 ∧ exec .dec s1 = .next s2 ∧ s2.t = s.t ∧ s2.status = 0x00#8

/-- `ENC` after `DEC` restores the image exactly when it is canonical; the byte counts of the canonical images
are the spec's own enumeration. -/
def Obligations.EncAfterDecRestoresCanonicalImages : Prop :=
  (∀ s : State, ∃ s1 s2 : State, exec .dec s = .next s1 ∧ exec .enc s1 = .next s2 ∧
    (s2.r = s.r ↔ canonicalImage s.r)) ∧
  ∀ f : Field,
    ((List.range 256).filter fun n =>
      BitVec.ofNat 8 n &&& payloadMask.get f = BitVec.ofNat 8 n ∧
        ((BitVec.ofNat 8 n).extractLsb' 0 4 : BitVec 4).toNat ≤ 9).length =
      (match f with
        | .sec => 80 | .min => 80 | .hour => 40 | .wday => 8 | .mday => 40 | .mon => 20 | .year => 160)

/-- For an in-contract time every encoded byte is well-formed BCD, lies inside its mask, and is at most the
byte of the field's largest value: so all reserved bits are written as zero. -/
def Obligations.InContractImageStaysInsideMasks : Prop :=
  ∀ t : Fields Word, inContract t →
    (∀ f : Field, (encodeTime t).get f &&& payloadMask.get f = (encodeTime t).get f ∧
      bcdWellFormed ((encodeTime t).get f) = true) ∧
    (encodeTime t).sec ≤ 0x59#8 ∧ (encodeTime t).min ≤ 0x59#8 ∧ (encodeTime t).hour ≤ 0x23#8 ∧
    (encodeTime t).wday ≤ 0x07#8 ∧ (encodeTime t).mday ≤ 0x31#8 ∧ (encodeTime t).mon ≤ 0x12#8 ∧
    (encodeTime t).year ≤ 0x99#8

/-! ### The bus sequencer (41_bus_sequencer.md, 42_calendar_ops.md) -/

/-- R56: the submissions, written out; in either write form the device is sent the index `0x00` and then the
seven bytes in order (R85). -/
def Obligations.SubmissionsWrittenOut : Prop :=
  readSubmission = { dev := Config.devAddr, list := [.write 1 [0x00#8], .read 7] } ∧
  (∀ v : Image, writeSubmission .split v = { dev := Config.devAddr, list := [.write 1 [0x00#8],
    .write 7 [v.sec, v.min, v.hour, v.wday, v.mday, v.mon, v.year]] }) ∧
  (∀ v : Image, writeSubmission .combined v = { dev := Config.devAddr, list := [.write 8
    [0x00#8, v.sec, v.min, v.hour, v.wday, v.mday, v.mon, v.year]] }) ∧
  (∀ v : Image, bytesSent (writeSubmission .split v) = bytesSent (writeSubmission .combined v))

/-- R82: `RDREG`. The transport answers after any number `n` of moves that are no answer; the operation then
ends `n` steps after the step that began it (with `n` = 0 in that same step). -/
def Obligations.RdregReadsTheRegisterBlock : Prop :=
  decodeWord 0x03#8 = .ok .rdreg ∧
  (∀ (s : State) (n : Nat) (d : Image), answersAfter s n (.ok d) →
    ∃ u t, exec .rdreg s = .next u ∧ Host.Core.run core n u = .next t ∧
      t.r = d ∧ t.t = s.t ∧ t.status = 0x00#8 ∧ t.phase = .idle ∧
      t.history = s.history ++ [.submit readSubmission, .complete .ok (some d)]) ∧
  (∀ (s : State) (n : Nat), answersAfter s n .fail →
    ∃ u t, exec .rdreg s = .next u ∧ Host.Core.run core n u = .next t ∧
      t.r = s.r ∧ t.t = s.t ∧ t.status = 0x01#8 ∧ t.phase = .idle ∧
      t.history = s.history ++ [.submit readSubmission, .complete .fail none])

/-- R84: `WRREG`, the answer coming after any `n` moves as for `RDREG`. The bytes submitted are `R` as it
stands. -/
def Obligations.WrregSendsTheRawImage : Prop :=
  decodeWord 0x04#8 = .ok .wrreg ∧
  (∀ (s : State) (n : Nat) (a : Answer), answersAfter s n a →
    ∃ u t, exec .wrreg s = .next u ∧ Host.Core.run core n u = .next t ∧
      t.r = s.r ∧ t.t = s.t ∧ t.phase = .idle ∧
      t.status = (match a with | .ok _ => 0x00#8 | .fail => 0x01#8) ∧
      t.history = s.history ++ [
        .submit { dev := Config.devAddr, list := match Config.wrMode with
          | .split => [.write 1 [0x00#8],
              .write 7 [s.r.sec, s.r.min, s.r.hour, s.r.wday, s.r.mday, s.r.mon, s.r.year]]
          | .combined =>
              [.write 8 [0x00#8, s.r.sec, s.r.min, s.r.hour, s.r.wday, s.r.mday, s.r.mon, s.r.year]] },
        .complete (match a with | .ok _ => .ok | .fail => .fail) none])

/-- R95: `RDTIME`, the answer coming after any `n` moves as for `RDREG`; and its effect is exactly that of
`RDREG` and then, if and only if that ended with `STATUS` = 0, `DEC`. -/
def Obligations.RdtimeReadsTheCalendarTime : Prop :=
  decodeWord 0x05#8 = .ok .rdtime ∧
  (∀ (s : State) (n : Nat) (d : Image), answersAfter s n (.ok d) →
    ∃ u t, exec .rdtime s = .next u ∧ Host.Core.run core n u = .next t ∧
      t.r = d ∧ t.t = (decodeImage d).map (BitVec.ofInt 32) ∧ t.status = 0x00#8 ∧ t.phase = .idle ∧
      t.history = s.history ++ [.submit readSubmission, .complete .ok (some d)]) ∧
  (∀ (s : State) (n : Nat), answersAfter s n .fail →
    ∃ u t, exec .rdtime s = .next u ∧ Host.Core.run core n u = .next t ∧
      t.r = s.r ∧ t.t = s.t ∧ t.status = 0x01#8 ∧ t.phase = .idle ∧
      t.history = s.history ++ [.submit readSubmission, .complete .fail none]) ∧
  (∀ (s : State) (n : Nat) (a : Answer), answersAfter s n a →
    ∃ u1 t1 u t, exec .rdreg s = .next u1 ∧ Host.Core.run core n u1 = .next t1 ∧
      exec .rdtime s = .next u ∧ Host.Core.run core n u = .next t ∧
      (t1.status = 0x00#8 → exec .dec t1 = .next t) ∧ (t1.status ≠ 0x00#8 → t = t1))

/-- R96: `WRTIME`, the answer coming after any `n` moves as for `RDREG`: `R` holds the encoded image whatever
the answer; and its effect is exactly that of `ENC` followed by `WRREG`. -/
def Obligations.WrtimeSendsTheEncodedTime : Prop :=
  decodeWord 0x06#8 = .ok .wrtime ∧
  (∀ (s : State) (n : Nat) (a : Answer), answersAfter s n a →
    ∃ u t, exec .wrtime s = .next u ∧ Host.Core.run core n u = .next t ∧
      t.r = encodeTime s.t ∧ t.t = s.t ∧ t.phase = .idle ∧
      t.status = (match a with | .ok _ => 0x00#8 | .fail => 0x01#8) ∧
      t.history = s.history ++ [.submit (writeSubmission Config.wrMode (encodeTime s.t)),
        .complete (match a with | .ok _ => .ok | .fail => .fail) none]) ∧
  (∀ (s : State) (n : Nat) (a : Answer), answersAfter s n a →
    ∃ s1 u1 u t, exec .enc s = .next s1 ∧ exec .wrreg s1 = .next u1 ∧ Host.Core.run core n u1 = .next t ∧
      exec .wrtime s = .next u ∧ Host.Core.run core n u = .next t)

/-- A bus command whose answer is not there leaves the block in `WAIT` with its submission in flight: `STATUS`
and `T` as before, `R` as before but for `WRTIME`, and nothing in the buffer of a read (log 11). -/
def Obligations.BusCommandsWaitForTheAnswer : Prop :=
  ∀ s : State, (∀ a, ¬ answers s a) →
    (∃ t, exec .rdreg s = .next t ∧ t.phase = .wait .readRaw readSubmission ∧ t.r = s.r ∧ t.t = s.t ∧
      t.status = s.status ∧ t.buf = none ∧ t.history = s.history ++ [.submit readSubmission]) ∧
    (∃ t, exec .rdtime s = .next t ∧ t.phase = .wait .readTime readSubmission ∧ t.r = s.r ∧ t.t = s.t ∧
      t.status = s.status ∧ t.buf = none ∧ t.history = s.history ++ [.submit readSubmission]) ∧
    (∃ t, exec .wrreg s = .next t ∧ t.phase = .wait .write (writeSubmission Config.wrMode s.r) ∧ t.r = s.r ∧
      t.t = s.t ∧ t.status = s.status ∧ t.history = s.history ++ [.submit (writeSubmission Config.wrMode s.r)]) ∧
    (∃ t, exec .wrtime s = .next t ∧ t.phase = .wait .write (writeSubmission Config.wrMode t.r) ∧
      t.r = encodeTime s.t ∧ t.t = s.t ∧ t.status = s.status ∧
      t.history = s.history ++ [.submit (writeSubmission Config.wrMode t.r)])

/-- The frame of the four bus commands, whatever the transport does: `T` stays but for a successful `RDTIME`,
`R` stays but for `WRTIME` and the successful reads, `STATUS` stays until the command ends, and the host port's
two lists stay. That a write leaves the buffer alone is the model's choice (log 11). -/
def Obligations.BusCommandsFrame : Prop :=
  ∀ s t : State,
    (exec .rdreg s = .next t → t.t = s.t ∧ (t.r = s.r ∨ ∃ d, answers s (.ok d) ∧ t.r = d)) ∧
    (exec .wrreg s = .next t → t.t = s.t ∧ t.r = s.r ∧ t.buf = s.buf) ∧
    (exec .rdtime s = .next t → (t.t = s.t ∧ t.r = s.r) ∨ ∃ d, answers s (.ok d)) ∧
    (exec .wrtime s = .next t → t.t = s.t ∧ t.buf = s.buf) ∧
    ((exec .rdreg s = .next t ∨ exec .wrreg s = .next t ∨ exec .rdtime s = .next t ∨ exec .wrtime s = .next t) →
      t.inbox = s.inbox ∧ t.returned = s.returned ∧ t.transport = s.transport.tail ∧
      (t.phase ≠ .idle → t.status = s.status) ∧ ∃ more, t.history = s.history ++ more)

/-- R86: exactly one submission each time a bus command runs, made in one piece; none by `DEC` and `ENC`. -/
def Obligations.OneSubmissionPerBusCommand : Prop :=
  ∀ s t : State,
    (exec .rdreg s = .next t → submissionsOf t.history = submissionsOf s.history ++ [readSubmission]) ∧
    (exec .rdtime s = .next t → submissionsOf t.history = submissionsOf s.history ++ [readSubmission]) ∧
    (exec .wrreg s = .next t →
      submissionsOf t.history = submissionsOf s.history ++ [writeSubmission Config.wrMode s.r]) ∧
    (exec .wrtime s = .next t →
      submissionsOf t.history = submissionsOf s.history ++ [writeSubmission Config.wrMode (encodeTime s.t)]) ∧
    ((exec .dec s = .next t ∨ exec .enc s = .next t) → submissionsOf t.history = submissionsOf s.history)

/-- Over any step of the machine the submissions grow by nothing, or by one of R56's by a bus command the
block takes from the open port: nothing else ever submits. -/
def Obligations.OnlyBusCommandsSubmit : Prop :=
  ∀ s t : State, step s = .next t →
    submissionsOf t.history = submissionsOf s.history ∨
    ∃ (w : Byte) (sub : Submission), takes s (.hcmd w) ∧
      (w = 0x03#8 ∨ w = 0x04#8 ∨ w = 0x05#8 ∨ w = 0x06#8) ∧ madeByBlock sub ∧
      submissionsOf t.history = submissionsOf s.history ++ [sub]

/-- R87, R106: on `FAIL` the command ends with `STATUS` = 1 and one submission in all: nothing is retried, `T`
is unchanged, and `R` is unchanged but for `WRTIME`, where it holds the encoded image. -/
def Obligations.TransportFailureEndsTheCommand : Prop :=
  ∀ s : State, answers s .fail →
    (∀ i : Instr, i = .rdreg ∨ i = .wrreg ∨ i = .rdtime →
      ∃ t sub, exec i s = .next t ∧ t.status = 0x01#8 ∧ t.phase = .idle ∧ t.t = s.t ∧ t.r = s.r ∧
        submissionsOf t.history = submissionsOf s.history ++ [sub]) ∧
    (∃ t sub, exec .wrtime s = .next t ∧ t.status = 0x01#8 ∧ t.phase = .idle ∧ t.t = s.t ∧
      t.r = encodeTime s.t ∧ submissionsOf t.history = submissionsOf s.history ++ [sub]) ∧
    (∀ todo sub, s.phase = .wait todo sub → noResetNext s →
      ∃ t, step s = .next t ∧ t.status = 0x01#8 ∧ t.phase = .idle ∧ t.t = s.t ∧ t.r = s.r ∧
        submissionsOf t.history = submissionsOf s.history)

/-- R88: only the transport's answer ends the wait. As long as the moves that have come are no answer, any
number of steps only uses them up; a transport that never answers leaves the block in `WAIT` for ever. -/
def Obligations.OnlyAnAnswerEndsTheWait : Prop :=
  (∀ (s : State) (n : Nat) (todo : Pending) (sub : Submission),
    s.phase = .wait todo sub → noResetNext s → neverAnswers (s.transport.take n) →
      Host.Core.run core n s = .next { s with transport := s.transport.drop n }) ∧
  (∀ (s : State) (todo : Pending) (sub : Submission),
    s.phase = .wait todo sub → noResetNext s → neverAnswers s.transport →
      ∀ n : Nat, ∃ t, Host.Core.run core n s = .next t ∧ t.phase = .wait todo sub ∧ t.t = s.t ∧ t.r = s.r ∧
        t.status = s.status ∧ t.inbox = s.inbox)

/-- A bus command completes when the transport answers: after the moves that are no answer and the answer
itself, the block is `IDLE` with the operation's register writes made, or none of them on `FAIL`. -/
def Obligations.AnsweredOperationCompletes : Prop :=
  ∀ (s : State) (todo : Pending) (sub : Submission) (quiet rest : List Move) (a : Answer),
    s.phase = .wait todo sub → noResetNext s → neverAnswers quiet → s.transport = quiet ++ .answer a :: rest →
      ∃ t, Host.Core.run core (quiet.length + 1) s = .next t ∧ t.phase = .idle ∧ t.transport = rest ∧
        t.inbox = s.inbox ∧ t.returned = s.returned ∧ submissionsOf t.history = submissionsOf s.history ∧
        (∀ d, a = .ok d → t.status = 0x00#8 ∧ t.r = (if todo.reads then d else s.r) ∧
          t.t = (if todo = .readTime then decodeToT d else s.t)) ∧
        (a = .fail → t.status = 0x01#8 ∧ t.r = s.r ∧ t.t = s.t)

/-- R97: a failing answer, at once or after any wait, leaves `T` exactly what it was, and reports
`TransportFailure`. -/
def Obligations.NoPartialResultOnFailure : Prop :=
  (∀ s : State, answers s .fail →
    ∃ t u, exec .rdtime s = .next t ∧ t.t = s.t ∧ t.r = s.r ∧ t.status = 0x01#8 ∧
      exec .wrtime s = .next u ∧ u.t = s.t ∧ u.status = 0x01#8) ∧
  (∀ (s : State) (todo : Pending) (sub : Submission),
    s.phase = .wait todo sub → noResetNext s → answers s .fail →
      ∃ t, step s = .next t ∧ t.t = s.t ∧ t.r = s.r ∧ t.status = 0x01#8 ∧ t.phase = .idle)

/-- Nothing is cached: with the answer given, a successful read gives the same state whatever `R`, `T`,
`STATUS` and `BUF` held before, and every command's outcome is free of the `STATUS` before it. -/
def Obligations.ReadsForgetTheOldRegisters : Prop :=
  ∀ (s : State) (t : Fields Word) (r : Image) (c : Byte) (b : Option Image),
    (∀ d, answers s (.ok d) →
      exec .rdtime { s with t := t, r := r, status := c, buf := b } = exec .rdtime s ∧
      exec .rdreg { s with r := r, status := c, buf := b } = exec .rdreg s) ∧
    (∀ (i : Instr) (a : Answer), answers s a → exec i { s with status := c } = exec i s)

/-- Setting the time and reading it back through a device that is consistent with the history (R91, log 23)
restores every in-contract time exactly, whatever number of moves (`n`, `m`) either answer takes: a premise
about the device, not a property of the block alone. -/
def Obligations.SetThenReadRestoresTheTime : Prop :=
  ∀ (s u1 s1 u2 s2 : State) (n m : Nat) (a b : Answer) (chip : Option Image), inContract s.t →
    answersAfter s n a → exec .wrtime s = .next u1 → Host.Core.run core n u1 = .next s1 → s1.status = 0x00#8 →
    answersAfter s1 m b → exec .rdtime s1 = .next u2 → Host.Core.run core m u2 = .next s2 → s2.status = 0x00#8 →
    deviceConsistent chip none (s2.history.drop s.history.length) →
      s2.t = s.t ∧ s2.r = s1.r

/-! ### The host port (10_state.md section 2, 42_calendar_ops.md section 2) -/

/-- R13: the register ids, each naming one register, and the set of them closed. -/
def Obligations.RegisterIdsAreClosed : Prop :=
  (∀ (id : Nat) (reg : RegId), regOf id = some reg ↔ id = regNumber reg) ∧
  (∀ id : Nat, regOf id = none ↔ id = 0x07 ∨ id = 0x0F ∨ 0x11 ≤ id) ∧
  (∀ f : Field, regNumber (.t f) = fieldIndex f ∧ regNumber (.r f) = 0x08 + fieldIndex f) ∧
  regNumber .status = 0x10 ∧
  (fieldIndex .sec = 0 ∧ fieldIndex .min = 1 ∧ fieldIndex .hour = 2 ∧ fieldIndex .wday = 3 ∧
    fieldIndex .mday = 4 ∧ fieldIndex .mon = 5 ∧ fieldIndex .year = 6)

/-- R99: a host read returns the register at its own width and changes nothing else; `STATUS` reads with its
reserved bits 0 (R17). Never written since reset, a register returns its `T_init` or `R_init` value. -/
def Obligations.HostReadReturnsTheRegister : Prop :=
  (∀ (s : State) (f : Field) (rest : List Action), s.phase = .idle → s.inbox = .hrd (fieldIndex f) :: rest →
    step s = .next { s with inbox := rest, returned := s.returned ++ [(.t f, .word (s.t.get f))] }) ∧
  (∀ (s : State) (f : Field) (rest : List Action), s.phase = .idle →
    s.inbox = .hrd (0x08 + fieldIndex f) :: rest →
    step s = .next { s with inbox := rest, returned := s.returned ++ [(.r f, .byte (s.r.get f))] }) ∧
  (∀ (s : State) (rest : List Action), s.phase = .idle → s.inbox = .hrd 0x10 :: rest →
    step s = .next { s with
      inbox := rest, returned := s.returned ++ [(.status, .byte (0#6 ++ s.status.extractLsb' 0 2))] }) ∧
  (∀ f : Field, readReg State.reset (.t f) = .word (Config.tInit f) ∧
    readReg State.reset (.r f) = .byte (Config.rInit f)) ∧
  (∀ (s : State) (id : Nat) (rest : List Action), s.phase = .idle → s.inbox = .hrd id :: rest →
    regOf id = none → step s = .refused (.noSuchRegister id)) ∧
  (∀ (s : State) (id : Nat) (rest : List Action) (todo : Pending) (sub : Submission),
    s.phase = .wait todo sub → s.inbox = .hrd id :: rest →
      ∃ t, step s = .next t ∧ t.inbox = s.inbox ∧ t.returned = s.returned)

/-- R100: a host write writes the one register it names, at its width and without a check of the range, and
changes nothing else: no other register of the file, not the other file, not `STATUS`. -/
def Obligations.HostWriteWritesOneRegister : Prop :=
  (∀ (s : State) (f : Field) (x : Word) (rest : List Action), s.phase = .idle →
    s.inbox = .hwr (fieldIndex f) (.word x) :: rest →
    ∃ v : Fields Word, step s = .next { s with inbox := rest, t := v } ∧ v.get f = x ∧
      ∀ g : Field, g ≠ f → v.get g = s.t.get g) ∧
  (∀ (s : State) (f : Field) (b : Byte) (rest : List Action), s.phase = .idle →
    s.inbox = .hwr (0x08 + fieldIndex f) (.byte b) :: rest →
    ∃ v : Image, step s = .next { s with inbox := rest, r := v } ∧ v.get f = b ∧
      ∀ g : Field, g ≠ f → v.get g = s.r.get g) ∧
  (∀ (s : State) (v : RegValue) (rest : List Action), s.phase = .idle → s.inbox = .hwr 0x10 v :: rest →
    step s = .refused .statusNotWritable) ∧
  (∀ (s : State) (id : Nat) (v : RegValue) (rest : List Action) (todo : Pending) (sub : Submission),
    s.phase = .wait todo sub → s.inbox = .hwr id v :: rest →
      ∃ t, step s = .next t ∧ t.inbox = s.inbox)

/-- What is no action of the port is refused, and nothing else is: an id that names no register, a write to
`STATUS`, a value that has not its register's width (93 U9, U16; the last is the model's reading, log 12). -/
def Obligations.OnlyIllFormedActionsAreRefused : Prop :=
  (∀ (s : State) (a : Action) (rest : List Action), s.phase = .idle → s.inbox = a :: rest →
    ((∃ why, step s = .refused why) ↔ a.wellFormed = false)) ∧
  (∀ (s : State) (id : Nat) (v : RegValue) (rest : List Action), s.phase = .idle → regOf id = none →
    (s.inbox = .hrd id :: rest ∨ s.inbox = .hwr id v :: rest) → step s = .refused (.noSuchRegister id)) ∧
  (∀ (s : State) (f : Field) (b : Byte) (x : Word) (rest : List Action), s.phase = .idle →
    (s.inbox = .hwr (fieldIndex f) (.byte b) :: rest →
      step s = .refused (.valueNotOfWidth (fieldIndex f))) ∧
    (s.inbox = .hwr (0x08 + fieldIndex f) (.word x) :: rest →
      step s = .refused (.valueNotOfWidth (0x08 + fieldIndex f))))

/-- R22: while the block waits the port is closed: the actions stay where they are, nothing is returned to the
host, and until the answer comes no register changes. -/
def Obligations.HostPortIsClosedWhileWaiting : Prop :=
  ∀ (s : State) (todo : Pending) (sub : Submission), s.phase = .wait todo sub → noResetNext s →
    ∃ t, step s = .next t ∧ t.inbox = s.inbox ∧ t.returned = s.returned ∧
      (t.phase ≠ .idle → t.phase = s.phase ∧ t.t = s.t ∧ t.r = s.r ∧ t.status = s.status) ∧
      (t.phase = .idle ↔ ∃ a, answers s a)

/-- R58: the two shorthands expand to their seven host writes, in register order. -/
def Obligations.ShorthandsExpandInOrder : Prop :=
  (∀ s mi h wd d mo y : Int,
    settime { sec := s, min := mi, hour := h, wday := wd, mday := d, mon := mo, year := y } =
      [.hwr 0x00 (.word (BitVec.ofInt 32 s)), .hwr 0x01 (.word (BitVec.ofInt 32 mi)),
       .hwr 0x02 (.word (BitVec.ofInt 32 h)), .hwr 0x03 (.word (BitVec.ofInt 32 wd)),
       .hwr 0x04 (.word (BitVec.ofInt 32 d)), .hwr 0x05 (.word (BitVec.ofInt 32 mo)),
       .hwr 0x06 (.word (BitVec.ofInt 32 y))]) ∧
  (∀ b0 b1 b2 b3 b4 b5 b6 : Byte,
    setraw { sec := b0, min := b1, hour := b2, wday := b3, mday := b4, mon := b5, year := b6 } =
      [.hwr 0x08 (.byte b0), .hwr 0x09 (.byte b1), .hwr 0x0A (.byte b2), .hwr 0x0B (.byte b3),
       .hwr 0x0C (.byte b4), .hwr 0x0D (.byte b5), .hwr 0x0E (.byte b6)])

/-- The seven host writes of a shorthand leave the whole file as given, and nothing else changed. -/
def Obligations.ShorthandsLoadAWholeFile : Prop :=
  (∀ (s : State) (v : Fields Int) (rest : List Action), s.phase = .idle → s.inbox = settime v ++ rest →
    Host.Core.run core 7 s = .next { s with inbox := rest, t := v.map (BitVec.ofInt 32) }) ∧
  (∀ (s : State) (v : Image) (rest : List Action), s.phase = .idle → s.inbox = setraw v ++ rest →
    Host.Core.run core 7 s = .next { s with inbox := rest, r := v })

/-! ### Reset and the whole machine (10_state.md, 70_reset_and_hazards.md) -/

/-- The values the spec gives for reset: `STATUS` 0, `PHASE` `IDLE`, no submission, no content in `BUF` (which is
`none`, log 11), and `T`, `R` at `T_init`, `R_init` (log 1). -/
def Obligations.ResetLeavesTheStatedValues : Prop :=
  State.reset.status = 0x00#8 ∧ State.reset.phase = .idle ∧ State.reset.buf = none ∧
  submissionsOf State.reset.history = [] ∧
  ∀ f : Field, State.reset.t.get f = Config.tInit f ∧ State.reset.r.get f = Config.rInit f

/-- R120, R121: the reset event in any phase. It makes no submission and forgets one in flight; a late answer
to it is then ignored; with no action to come the block does nothing. That the event is an action which goes
before an answer at hand, and what it keeps outside the block, is the model's choice (log 9, log 10). -/
def Obligations.ResetEventInAnyPhase : Prop :=
  (∀ (s : State) (rest : List Action), s.inbox = .reset :: rest →
    ∃ t, step s = .next t ∧ t.status = 0x00#8 ∧ t.phase = .idle ∧ t.buf = none ∧
      (∀ f : Field, t.t.get f = Config.tInit f ∧ t.r.get f = Config.rInit f) ∧
      t.history = s.history ∧ t.transport = s.transport ∧ t.inbox = rest ∧ (rest = [] → step t = .next t)) ∧
  (∀ (s : State) (todo : Pending) (sub : Submission) (a : Answer) (rest : List Move),
    s.phase = .wait todo sub → noResetNext s → s.transport = .late a :: rest →
      step s = .next { s with transport := rest })

/-- The invariant holds at reset: the model's own invariant, whose parts are said at `State.Inv`. -/
def Obligations.ResetMeetsTheInvariant : Prop := State.reset.Inv

/-- Every step keeps the invariant: `STATUS` holds one of its three codes (R17); while the block waits, the
submission in flight is the one its operation makes from `R` as it still stands, with a read's buffer empty
and the history's last event that submission (R21, R56, R91); and the history is one the rules allow. The empty
buffer is log 11, a history with a submission that a reset made the block forget is log 17. -/
def Obligations.StepKeepsTheInvariant : Prop :=
  ∀ s t : State, s.Inv → step s = .next t → t.Inv

/-- Who writes each register: over any step, `T`, `R` and `STATUS` change only as R14's table says, or by the
reset event. -/
def Obligations.RegistersHaveOnlyTheirWriters : Prop :=
  ∀ s t : State, step s = .next t →
    (t.t ≠ s.t → takes s .reset ∨ (∃ id f x, regOf id = some (.t f) ∧ takes s (.hwr id (.word x))) ∨
      takes s (.hcmd 0x01#8) ∨
      ((takes s (.hcmd 0x05#8) ∨ ∃ sub, s.phase = .wait .readTime sub) ∧ ∃ d, answers s (.ok d))) ∧
    (t.r ≠ s.r → takes s .reset ∨ (∃ id f b, regOf id = some (.r f) ∧ takes s (.hwr id (.byte b))) ∨
      takes s (.hcmd 0x02#8) ∨ takes s (.hcmd 0x06#8) ∨
      ((takes s (.hcmd 0x03#8) ∨ takes s (.hcmd 0x05#8) ∨ ∃ todo sub, s.phase = .wait todo sub ∧ todo.reads = true) ∧
        ∃ d, answers s (.ok d))) ∧
    (t.status ≠ s.status → takes s .reset ∨ (∃ w, takes s (.hcmd w)) ∨
      ((∃ todo sub, s.phase = .wait todo sub) ∧ ∃ a, answers s a))
end

