-- ==== Sys2Proof/Laws/State.lean ====
section
/-! SUPPORT. One lemma per field per named update of State, and the laws of a register file's positions. -/

namespace Sys2Proof

theorem Fields.ext_get {α : Type} {v w : Fields α} (h : ∀ f, v.get f = w.get f) : v = w := by
  obtain ⟨⟩ := v
  obtain ⟨⟩ := w
  have h0 := h .sec
  have h1 := h .min
  have h2 := h .hour
  have h3 := h .wday
  have h4 := h .mday
  have h5 := h .mon
  have h6 := h .year
  simp only [Fields.get] at h0 h1 h2 h3 h4 h5 h6
  subst h0 h1 h2 h3 h4 h5 h6
  rfl

@[simp] theorem Fields.get_set_same {α : Type} (v : Fields α) (f : Field) (a : α) : (v.set f a).get f = a := by
  cases f <;> rfl

theorem Fields.get_set_other {α : Type} (v : Fields α) {f g : Field} (a : α) (h : g ≠ f) :
    (v.set f a).get g = v.get g := by
  cases f <;> cases g <;> first | rfl | exact absurd rfl h

@[simp] theorem Fields.get_map {α β : Type} (k : α → β) (v : Fields α) (f : Field) :
    (v.map k).get f = k (v.get f) := by
  cases f <;> rfl

namespace Machine

@[simp] theorem setT_t (s : State) (v : Fields Word) : (s.setT v).t = v := rfl
@[simp] theorem setT_r (s : State) (v : Fields Word) : (s.setT v).r = s.r := rfl
@[simp] theorem setT_status (s : State) (v : Fields Word) : (s.setT v).status = s.status := rfl
@[simp] theorem setT_phase (s : State) (v : Fields Word) : (s.setT v).phase = s.phase := rfl
@[simp] theorem setT_buf (s : State) (v : Fields Word) : (s.setT v).buf = s.buf := rfl
@[simp] theorem setT_history (s : State) (v : Fields Word) : (s.setT v).history = s.history := rfl
@[simp] theorem setT_inbox (s : State) (v : Fields Word) : (s.setT v).inbox = s.inbox := rfl
@[simp] theorem setT_transport (s : State) (v : Fields Word) : (s.setT v).transport = s.transport := rfl
@[simp] theorem setT_returned (s : State) (v : Fields Word) : (s.setT v).returned = s.returned := rfl

@[simp] theorem setR_t (s : State) (v : Image) : (s.setR v).t = s.t := rfl
@[simp] theorem setR_r (s : State) (v : Image) : (s.setR v).r = v := rfl
@[simp] theorem setR_status (s : State) (v : Image) : (s.setR v).status = s.status := rfl
@[simp] theorem setR_phase (s : State) (v : Image) : (s.setR v).phase = s.phase := rfl
@[simp] theorem setR_buf (s : State) (v : Image) : (s.setR v).buf = s.buf := rfl
@[simp] theorem setR_history (s : State) (v : Image) : (s.setR v).history = s.history := rfl
@[simp] theorem setR_inbox (s : State) (v : Image) : (s.setR v).inbox = s.inbox := rfl
@[simp] theorem setR_transport (s : State) (v : Image) : (s.setR v).transport = s.transport := rfl
@[simp] theorem setR_returned (s : State) (v : Image) : (s.setR v).returned = s.returned := rfl

@[simp] theorem setStatus_t (s : State) (c : StatusCode) : (s.setStatus c).t = s.t := rfl
@[simp] theorem setStatus_r (s : State) (c : StatusCode) : (s.setStatus c).r = s.r := rfl
@[simp] theorem setStatus_status (s : State) (c : StatusCode) : (s.setStatus c).status = c.byte := rfl
@[simp] theorem setStatus_phase (s : State) (c : StatusCode) : (s.setStatus c).phase = s.phase := rfl
@[simp] theorem setStatus_buf (s : State) (c : StatusCode) : (s.setStatus c).buf = s.buf := rfl
@[simp] theorem setStatus_history (s : State) (c : StatusCode) : (s.setStatus c).history = s.history := rfl
@[simp] theorem setStatus_inbox (s : State) (c : StatusCode) : (s.setStatus c).inbox = s.inbox := rfl
@[simp] theorem setStatus_transport (s : State) (c : StatusCode) : (s.setStatus c).transport = s.transport := rfl
@[simp] theorem setStatus_returned (s : State) (c : StatusCode) : (s.setStatus c).returned = s.returned := rfl

@[simp] theorem setPhase_t (s : State) (p : Phase) : (s.setPhase p).t = s.t := rfl
@[simp] theorem setPhase_r (s : State) (p : Phase) : (s.setPhase p).r = s.r := rfl
@[simp] theorem setPhase_status (s : State) (p : Phase) : (s.setPhase p).status = s.status := rfl
@[simp] theorem setPhase_phase (s : State) (p : Phase) : (s.setPhase p).phase = p := rfl
@[simp] theorem setPhase_buf (s : State) (p : Phase) : (s.setPhase p).buf = s.buf := rfl
@[simp] theorem setPhase_history (s : State) (p : Phase) : (s.setPhase p).history = s.history := rfl
@[simp] theorem setPhase_inbox (s : State) (p : Phase) : (s.setPhase p).inbox = s.inbox := rfl
@[simp] theorem setPhase_transport (s : State) (p : Phase) : (s.setPhase p).transport = s.transport := rfl
@[simp] theorem setPhase_returned (s : State) (p : Phase) : (s.setPhase p).returned = s.returned := rfl

@[simp] theorem setBuf_t (s : State) (b : Option Image) : (s.setBuf b).t = s.t := rfl
@[simp] theorem setBuf_r (s : State) (b : Option Image) : (s.setBuf b).r = s.r := rfl
@[simp] theorem setBuf_status (s : State) (b : Option Image) : (s.setBuf b).status = s.status := rfl
@[simp] theorem setBuf_phase (s : State) (b : Option Image) : (s.setBuf b).phase = s.phase := rfl
@[simp] theorem setBuf_buf (s : State) (b : Option Image) : (s.setBuf b).buf = b := rfl
@[simp] theorem setBuf_history (s : State) (b : Option Image) : (s.setBuf b).history = s.history := rfl
@[simp] theorem setBuf_inbox (s : State) (b : Option Image) : (s.setBuf b).inbox = s.inbox := rfl
@[simp] theorem setBuf_transport (s : State) (b : Option Image) : (s.setBuf b).transport = s.transport := rfl
@[simp] theorem setBuf_returned (s : State) (b : Option Image) : (s.setBuf b).returned = s.returned := rfl

@[simp] theorem setInbox_t (s : State) (l : List Action) : (s.setInbox l).t = s.t := rfl
@[simp] theorem setInbox_r (s : State) (l : List Action) : (s.setInbox l).r = s.r := rfl
@[simp] theorem setInbox_status (s : State) (l : List Action) : (s.setInbox l).status = s.status := rfl
@[simp] theorem setInbox_phase (s : State) (l : List Action) : (s.setInbox l).phase = s.phase := rfl
@[simp] theorem setInbox_buf (s : State) (l : List Action) : (s.setInbox l).buf = s.buf := rfl
@[simp] theorem setInbox_history (s : State) (l : List Action) : (s.setInbox l).history = s.history := rfl
@[simp] theorem setInbox_inbox (s : State) (l : List Action) : (s.setInbox l).inbox = l := rfl
@[simp] theorem setInbox_transport (s : State) (l : List Action) : (s.setInbox l).transport = s.transport := rfl
@[simp] theorem setInbox_returned (s : State) (l : List Action) : (s.setInbox l).returned = s.returned := rfl

@[simp] theorem setTransport_t (s : State) (l : List Move) : (s.setTransport l).t = s.t := rfl
@[simp] theorem setTransport_r (s : State) (l : List Move) : (s.setTransport l).r = s.r := rfl
@[simp] theorem setTransport_status (s : State) (l : List Move) : (s.setTransport l).status = s.status := rfl
@[simp] theorem setTransport_phase (s : State) (l : List Move) : (s.setTransport l).phase = s.phase := rfl
@[simp] theorem setTransport_buf (s : State) (l : List Move) : (s.setTransport l).buf = s.buf := rfl
@[simp] theorem setTransport_history (s : State) (l : List Move) : (s.setTransport l).history = s.history := rfl
@[simp] theorem setTransport_inbox (s : State) (l : List Move) : (s.setTransport l).inbox = s.inbox := rfl
@[simp] theorem setTransport_transport (s : State) (l : List Move) : (s.setTransport l).transport = l := rfl
@[simp] theorem setTransport_returned (s : State) (l : List Move) : (s.setTransport l).returned = s.returned := rfl

@[simp] theorem record_t (s : State) (e : Event) : (s.record e).t = s.t := rfl
@[simp] theorem record_r (s : State) (e : Event) : (s.record e).r = s.r := rfl
@[simp] theorem record_status (s : State) (e : Event) : (s.record e).status = s.status := rfl
@[simp] theorem record_phase (s : State) (e : Event) : (s.record e).phase = s.phase := rfl
@[simp] theorem record_buf (s : State) (e : Event) : (s.record e).buf = s.buf := rfl
@[simp] theorem record_history (s : State) (e : Event) : (s.record e).history = s.history ++ [e] := rfl
@[simp] theorem record_inbox (s : State) (e : Event) : (s.record e).inbox = s.inbox := rfl
@[simp] theorem record_transport (s : State) (e : Event) : (s.record e).transport = s.transport := rfl
@[simp] theorem record_returned (s : State) (e : Event) : (s.record e).returned = s.returned := rfl

@[simp] theorem answerHost_t (s : State) (id : RegId) (v : RegValue) : (s.answerHost id v).t = s.t := rfl
@[simp] theorem answerHost_r (s : State) (id : RegId) (v : RegValue) : (s.answerHost id v).r = s.r := rfl
@[simp] theorem answerHost_status (s : State) (id : RegId) (v : RegValue) : (s.answerHost id v).status = s.status := rfl
@[simp] theorem answerHost_phase (s : State) (id : RegId) (v : RegValue) : (s.answerHost id v).phase = s.phase := rfl
@[simp] theorem answerHost_buf (s : State) (id : RegId) (v : RegValue) : (s.answerHost id v).buf = s.buf := rfl
@[simp] theorem answerHost_history (s : State) (id : RegId) (v : RegValue) : (s.answerHost id v).history = s.history := rfl
@[simp] theorem answerHost_inbox (s : State) (id : RegId) (v : RegValue) : (s.answerHost id v).inbox = s.inbox := rfl
@[simp] theorem answerHost_transport (s : State) (id : RegId) (v : RegValue) : (s.answerHost id v).transport = s.transport := rfl
@[simp] theorem answerHost_returned (s : State) (id : RegId) (v : RegValue) : (s.answerHost id v).returned = s.returned ++ [(id, v)] := rfl

end Machine
end Sys2Proof
end

