-- ==== Sys2Proof/Laws/Codec.lean ====
section
/-! SUPPORT. The codec in plain arithmetic: what each byte function is as a number, and what a mask leaves. -/

namespace Sys2Proof.Machine

/-- `bcd_decode` by quotient and remainder. -/
theorem bcdDecode_eq (b : Byte) : bcdDecode b = 10 * (b.toNat / 16) + b.toNat % 16 := by
  unfold bcdDecode
  have h : (b &&& 0x0F#8).toNat = b.toNat % 16 := by
    rw [BitVec.toNat_and]
    exact Nat.and_two_pow_sub_one_eq_mod b.toNat 4
  rw [h, BitVec.toNat_ushiftRight, Nat.shiftRight_eq_div_pow]

/-- The source's formula is addition: the shifted tens digit has an empty low nibble. -/
theorem digits_or (q r : Nat) (h : r < 16) : (q <<< 4) ||| r = 16 * q + r := by
  rw [Nat.shiftLeft_eq, Nat.mul_comm]
  exact (Nat.two_pow_add_eq_or_of_lt (i := 4) h q).symm

/-- `bcd_encode` as a number. -/
theorem bcdEncode_toNat (u : Nat) : (bcdEncode u).toNat = truncatedBcd u := by
  unfold bcdEncode truncatedBcd
  rw [digits_or _ _ (by omega), BitVec.toNat_ofNat]
  omega

theorem and_0x7F_toNat (b : Byte) : (b &&& 0x7F#8).toNat = b.toNat % 128 := by
  rw [BitVec.toNat_and]; exact Nat.and_two_pow_sub_one_eq_mod b.toNat 7

theorem and_0x3F_toNat (b : Byte) : (b &&& 0x3F#8).toNat = b.toNat % 64 := by
  rw [BitVec.toNat_and]; exact Nat.and_two_pow_sub_one_eq_mod b.toNat 6

theorem and_0x1F_toNat (b : Byte) : (b &&& 0x1F#8).toNat = b.toNat % 32 := by
  rw [BitVec.toNat_and]; exact Nat.and_two_pow_sub_one_eq_mod b.toNat 5

theorem and_0x07_toNat (b : Byte) : (b &&& 0x07#8).toNat = b.toNat % 8 := by
  rw [BitVec.toNat_and]; exact Nat.and_two_pow_sub_one_eq_mod b.toNat 3

theorem and_0xFF (b : Byte) : b &&& 0xFF#8 = b := by
  apply BitVec.eq_of_toNat_eq
  rw [BitVec.toNat_and]
  exact (Nat.and_two_pow_sub_one_eq_mod b.toNat 8).trans (Nat.mod_eq_of_lt b.isLt)

/-- A nibble, or any other slice, as a number. -/
theorem slice_toNat (b : Byte) (start len : Nat) :
    (b.extractLsb' start len).toNat = b.toNat / 2 ^ start % 2 ^ len := by
  rw [BitVec.extractLsb'_toNat, Nat.shiftRight_eq_div_pow]

/-- A well-formed BCD byte as a number: both digits at most 9. -/
theorem bcdWellFormed_iff (b : Byte) : bcdWellFormed b = true ↔ b.toNat / 16 ≤ 9 ∧ b.toNat % 16 ≤ 9 := by
  simp only [bcdWellFormed, slice_toNat, Bool.and_eq_true, decide_eq_true_eq]
  have := b.isLt
  omega

/-- A `T` register holds a small integer without loss (R71). -/
theorem toWord_toInt {v : Int} (lo : -2147483648 ≤ v) (hi : v < 2147483648) : (toWord v).toInt = v := by
  unfold toWord
  rw [BitVec.toInt_ofInt]
  apply Int.bmod_eq_of_le <;> simp <;> omega

/-- `u_TW` of an integer is the pattern a register holds for it. -/
theorem patternOf_toInt (w : Word) : patternOf w.toInt = w.toNat := by
  unfold patternOf
  rw [BitVec.toInt_eq_toNat_cond]
  have := w.isLt
  split <;> omega

/-- The decoded time, field by field, in plain arithmetic. -/
theorem decodeToT_toInt (raw : Image) :
    (decodeToT raw).sec.toInt = 10 * (raw.sec.toNat % 128 / 16 : Int) + raw.sec.toNat % 16 ∧
    (decodeToT raw).min.toInt = 10 * (raw.min.toNat % 128 / 16 : Int) + raw.min.toNat % 16 ∧
    (decodeToT raw).hour.toInt = 10 * (raw.hour.toNat % 64 / 16 : Int) + raw.hour.toNat % 16 ∧
    (decodeToT raw).wday.toInt = (raw.wday.toNat % 8 : Int) - 1 ∧
    (decodeToT raw).mday.toInt = 10 * (raw.mday.toNat % 64 / 16 : Int) + raw.mday.toNat % 16 ∧
    (decodeToT raw).mon.toInt = 10 * (raw.mon.toNat % 32 / 16 : Int) + raw.mon.toNat % 16 - 1 ∧
    (decodeToT raw).year.toInt = 10 * (raw.year.toNat / 16 : Int) + raw.year.toNat % 16 + 100 := by
  have := raw.sec.isLt
  have := raw.min.isLt
  have := raw.hour.isLt
  have := raw.year.isLt
  refine ⟨?_, ?_, ?_, ?_, ?_, ?_, ?_⟩ <;>
  · simp only [decodeToT, Fields.map, decodeImage, bcdDecode_eq, and_0x7F_toNat, and_0x3F_toNat,
      and_0x1F_toNat, and_0x07_toNat]
    rw [toWord_toInt] <;> push_cast <;> omega

/-- The encoded image, field by field, as a function of the register patterns. -/
theorem encodeTime_toNat (t : Fields Word) :
    (encodeTime t).sec.toNat = truncatedBcd t.sec.toNat ∧
    (encodeTime t).min.toNat = truncatedBcd t.min.toNat ∧
    (encodeTime t).hour.toNat = truncatedBcd t.hour.toNat ∧
    (encodeTime t).wday.toNat = truncatedBcd ((t.wday.toNat + 1) % 2 ^ 32) ∧
    (encodeTime t).mday.toNat = truncatedBcd t.mday.toNat ∧
    (encodeTime t).mon.toNat = truncatedBcd ((t.mon.toNat + 1) % 2 ^ 32) ∧
    (encodeTime t).year.toNat = truncatedBcd ((t.year.toNat + (2 ^ 32 - 100)) % 2 ^ 32) := by
  refine ⟨?_, ?_, ?_, ?_, ?_, ?_, ?_⟩ <;> simp only [encodeTime, bcdEncode_toNat, BitVec.toNat_add]
  · rfl
  · rfl
  · rw [BitVec.toNat_sub, Nat.add_comm]
    rfl

end Sys2Proof.Machine
end

