-- ==== Sys2Proof/Laws/Decode.lean ====
section
/-! SUPPORT. The command word: its two fields put it together again, and what the decoder says of it. -/

namespace Sys2Proof

theorem word_of_fields (w : Byte) : w = zeroField w ++ opField w := by
  unfold zeroField opField
  revert w
  decide

theorem decodeWord_of_zeroField {w : Byte} (h : zeroField w = 0#5) : decodeWord w = decodeOp (opField w) :=
  if_pos h

theorem decodeWord_of_zeroField_ne {w : Byte} (h : zeroField w ≠ 0#5) : decodeWord w = .error .zeroFieldSet :=
  if_neg h

/-- `decodeOp` names an operation exactly by its number. -/
theorem decodeOp_ok {op : BitVec 3} {i : Instr} (h : decodeOp op = .ok i) : op = opNumber i := by
  revert h
  unfold decodeOp
  split <;> intro h <;> cases h <;> (apply BitVec.eq_of_toNat_eq; assumption)

@[simp] theorem decodeOp_opNumber (i : Instr) : decodeOp (opNumber i) = .ok i := by
  cases i <;> rfl

end Sys2Proof
end

