-- ==== Sys2Proof/Laws/Ops.lean ====
section
/-! SUPPORT. What each shared operation can do, said once. -/

namespace Sys2Proof.Machine

theorem submissionsOf_append (h k : List Event) : submissionsOf (h ++ k) = submissionsOf h ++ submissionsOf k := by
  simp [submissionsOf]

@[simp] theorem submissionsOf_record_submit (h : List Event) (sub : Submission) :
    submissionsOf (h ++ [.submit sub]) = submissionsOf h ++ [sub] := by
  simp [submissionsOf]

@[simp] theorem submissionsOf_record_completion (h : List Event) (todo : Pending) (a : Answer) :
    submissionsOf (h ++ [completion todo a]) = submissionsOf h := by
  cases a <;> simp [submissionsOf, completion]

@[simp] theorem openIn_append (h : List Event) (e : Event) : openIn (h ++ [e]) = openAfter (openIn h) e := by
  simp [openIn]

/-- A history is extended by one event exactly as that event fits what is open. -/
theorem historyFits_append (o : Option Submission) (h : List Event) (e : Event) :
    historyFits o (h ++ [e]) ↔ historyFits o h ∧ eventFits (h.foldl openAfter o) e := by
  induction h generalizing o with
  | nil => simp [historyFits]
  | cons x rest ih => simp [historyFits, ih, and_assoc]

theorem readSubmission_ne_writeSubmission (m : WrMode) (v : Image) : readSubmission ≠ writeSubmission m v := by
  cases m <;> simp [readSubmission, writeSubmission, addrLen, blockLen]

/-- What a device's registers hold after each kind of completed transaction, said once. -/
@[simp] theorem chipAfter_read (d : Option Image) : chipAfter readSubmission d .ok = d := if_pos rfl

@[simp] theorem chipAfter_write (m : WrMode) (v : Image) (d : Option Image) :
    chipAfter (writeSubmission m v) d .ok = some v := by
  rw [chipAfter, if_neg (readSubmission_ne_writeSubmission m v).symm]
  cases m <;> rfl

@[simp] theorem chipAfter_fail (sub : Submission) (d : Option Image) : chipAfter sub d .fail = none := rfl

/-- A forgotten submission leaves the device's registers at any value, whatever it was. -/
@[simp] theorem deviceConsistent_forgotten (chip : Option Image) (old sub : Submission) (rest : List Event) :
    deviceConsistent chip (some old) (.submit sub :: rest) = deviceConsistent none (some sub) rest := rfl

/-- The end of an operation, by the answer. -/
theorem complete_ok (todo : Pending) (d : Image) (s : State) :
    complete todo (.ok d) s =
      ((writeBack todo d (s.record (completion todo (.ok d)))).setStatus .ok).setPhase .idle := rfl

theorem complete_fail (todo : Pending) (s : State) :
    complete todo .fail s = ((s.record (completion todo .fail)).setStatus .transportFailure).setPhase .idle := rfl

@[simp] theorem complete_phase (todo : Pending) (a : Answer) (s : State) : (complete todo a s).phase = .idle := by
  cases a <;> rfl

@[simp] theorem complete_inbox (todo : Pending) (a : Answer) (s : State) :
    (complete todo a s).inbox = s.inbox := by
  cases a <;> cases todo <;> rfl

@[simp] theorem complete_transport (todo : Pending) (a : Answer) (s : State) :
    (complete todo a s).transport = s.transport := by
  cases a <;> cases todo <;> rfl

@[simp] theorem complete_returned (todo : Pending) (a : Answer) (s : State) :
    (complete todo a s).returned = s.returned := by
  cases a <;> cases todo <;> rfl

@[simp] theorem complete_history (todo : Pending) (a : Answer) (s : State) :
    (complete todo a s).history = s.history ++ [completion todo a] := by
  cases a <;> cases todo <;> rfl

@[simp] theorem complete_status (todo : Pending) (a : Answer) (s : State) :
    (complete todo a s).status = (match a with | .ok _ => 0x00#8 | .fail => 0x01#8) := by
  cases a <;> cases todo <;> rfl

theorem complete_r (todo : Pending) (a : Answer) (s : State) :
    (complete todo a s).r = (match a with | .ok d => if todo.reads then d else s.r | .fail => s.r) := by
  cases a <;> cases todo <;> rfl

theorem complete_t (todo : Pending) (a : Answer) (s : State) :
    (complete todo a s).t =
      (match a with | .ok d => if todo = .readTime then decodeToT d else s.t | .fail => s.t) := by
  cases a <;> cases todo <;> rfl

/-- The transport's turn: nothing to do, one move that is no answer used up, or the operation completed. -/
theorem transportTurn_cases (s : State) :
    (transportTurn s = s ∧ (s.phase = .idle ∨ s.transport = [])) ∨
    (∃ m rest, s.transport = m :: rest ∧ (∀ a, m ≠ .answer a) ∧ s.phase ≠ .idle ∧
      transportTurn s = s.setTransport rest) ∨
    (∃ todo sub a rest, s.phase = .wait todo sub ∧ s.transport = .answer a :: rest ∧
      transportTurn s = complete todo a (s.setTransport rest)) := by
  unfold transportTurn
  split <;> simp_all

/-- In `WAIT` an answer completes the operation in flight. -/
theorem transportTurn_answer {s : State} {todo : Pending} {sub : Submission} {a : Answer} {rest : List Move}
    (hp : s.phase = .wait todo sub) (ht : s.transport = .answer a :: rest) :
    transportTurn s = complete todo a (s.setTransport rest) := by
  simp [transportTurn, hp, ht]

/-- A bus command whose answer is at hand: submitted and completed. -/
theorem busTransaction_answer {s : State} {a : Answer} {rest : List Move} (todo : Pending) (sub : Submission)
    (ht : s.transport = .answer a :: rest) :
    busTransaction todo sub s = complete todo a ((submit todo sub s).setTransport rest) := by
  apply transportTurn_answer (sub := sub)
  · rfl
  · cases todo <;> exact ht

theorem answers_iff {s : State} {a : Answer} : answers s a ↔ ∃ rest, s.transport = .answer a :: rest := by
  unfold answers
  cases s.transport <;> simp

/-- A bus command whose answer is not at hand: submitted, one move of the transport used up if there is one. -/
theorem busTransaction_noAnswer {s : State} (todo : Pending) (sub : Submission) (h : ∀ a, ¬ answers s a) :
    busTransaction todo sub s = (submit todo sub s).setTransport s.transport.tail := by
  unfold answers at h
  obtain ⟨t, r, status, phase, buf, history, inbox, transport, returned⟩ := s
  cases todo <;> rcases transport with _ | ⟨_ | a | a, rest⟩ <;> first | rfl | exact absurd rfl (h a)

@[simp] theorem submit_t (todo : Pending) (sub : Submission) (s : State) : (submit todo sub s).t = s.t := by
  cases todo <;> rfl

@[simp] theorem submit_r (todo : Pending) (sub : Submission) (s : State) : (submit todo sub s).r = s.r := by
  cases todo <;> rfl

@[simp] theorem submit_status (todo : Pending) (sub : Submission) (s : State) :
    (submit todo sub s).status = s.status := by
  cases todo <;> rfl

@[simp] theorem submit_phase (todo : Pending) (sub : Submission) (s : State) :
    (submit todo sub s).phase = .wait todo sub := rfl

theorem submit_buf (todo : Pending) (sub : Submission) (s : State) :
    (submit todo sub s).buf = if todo.reads then none else s.buf := by
  cases todo <;> rfl

@[simp] theorem submit_history (todo : Pending) (sub : Submission) (s : State) :
    (submit todo sub s).history = s.history ++ [.submit sub] := by
  cases todo <;> rfl

@[simp] theorem submit_inbox (todo : Pending) (sub : Submission) (s : State) :
    (submit todo sub s).inbox = s.inbox := by
  cases todo <;> rfl

@[simp] theorem submit_transport (todo : Pending) (sub : Submission) (s : State) :
    (submit todo sub s).transport = s.transport := by
  cases todo <;> rfl

@[simp] theorem submit_returned (todo : Pending) (sub : Submission) (s : State) :
    (submit todo sub s).returned = s.returned := by
  cases todo <;> rfl

/-- A bus command either ends at once, by the answer at hand, or is left waiting. -/
theorem busTransaction_cases (s : State) (todo : Pending) (sub : Submission) :
    (∃ a rest, s.transport = .answer a :: rest ∧
      busTransaction todo sub s = complete todo a ((submit todo sub s).setTransport rest)) ∨
    ((∀ a, ¬ answers s a) ∧
      busTransaction todo sub s = (submit todo sub s).setTransport s.transport.tail) := by
  by_cases h : ∃ a, answers s a
  · obtain ⟨a, h⟩ := h
    obtain ⟨rest, h⟩ := answers_iff.1 h
    exact .inl ⟨a, rest, h, busTransaction_answer _ _ h⟩
  · exact .inr ⟨by simpa using h, busTransaction_noAnswer _ _ (by simpa using h)⟩

/-- Whatever the transport does, one submission is made. -/
theorem busTransaction_submissions (s : State) (todo : Pending) (sub : Submission) :
    submissionsOf (busTransaction todo sub s).history = submissionsOf s.history ++ [sub] := by
  rcases busTransaction_cases s todo sub with ⟨a, rest, -, h⟩ | ⟨-, h⟩ <;> rw [h]
  · rw [complete_history, submissionsOf_record_completion, setTransport_history, submit_history,
      submissionsOf_record_submit]
  · simp

/-- The transport's turn makes no submission. -/
theorem transportTurn_submissions (s : State) :
    submissionsOf (transportTurn s).history = submissionsOf s.history := by
  rcases transportTurn_cases s with ⟨h, -⟩ | ⟨m, rest, -, -, -, h⟩ | ⟨todo, sub, a, rest, -, -, h⟩ <;>
    rw [h] <;> simp

end Sys2Proof.Machine
end

