-- ==== Sys2Proof/Laws/PerInstr.lean ====
section
/-! SUPPORT. What is proved command by command: each one's word decodes back to it. -/

namespace Sys2Proof.Laws.RoundTrip

/-- The decoder gives a well-formed command back from its word. -/
def Statement (i : Instr) : Prop := i.wellFormed = true → decodeWord (encodeWord i) = .ok i

theorem dec : Statement .dec := fun _ => rfl
theorem enc : Statement .enc := fun _ => rfl
theorem rdreg : Statement .rdreg := fun _ => rfl
theorem wrreg : Statement .wrreg := fun _ => rfl
theorem rdtime : Statement .rdtime := fun _ => rfl
theorem wrtime : Statement .wrtime := fun _ => rfl

end Sys2Proof.Laws.RoundTrip
end

