-- ==== Sys2Proof/Laws/Step.lean ====
section
/-! SUPPORT. What one step can be, said once: every whole-machine proof starts from `step_cases`. -/

namespace Sys2Proof.Machine

/-- The actions a block takes, by its phase. -/
theorem acceptedAction_some {s : State} {a : Action} {rest : List Action}
    (h : acceptedAction s = some (a, rest)) : s.inbox = a :: rest ∧ (s.phase = .idle ∨ a = .reset) := by
  revert h
  unfold acceptedAction
  split <;> simp_all

theorem acceptedAction_idle {s : State} {a : Action} {rest : List Action} (hp : s.phase = .idle)
    (hi : s.inbox = a :: rest) : acceptedAction s = some (a, rest) := by
  unfold acceptedAction
  split <;> simp_all

theorem acceptedAction_reset {s : State} {rest : List Action} (hi : s.inbox = .reset :: rest) :
    acceptedAction s = some (.reset, rest) := by
  unfold acceptedAction
  split <;> simp_all

theorem acceptedAction_wait {s : State} {todo : Pending} {sub : Submission} (hp : s.phase = .wait todo sub)
    (hr : noResetNext s) : acceptedAction s = none := by
  unfold acceptedAction
  unfold noResetNext at hr
  split <;> simp_all

theorem step_idle {s : State} {a : Action} {rest : List Action} (hp : s.phase = .idle)
    (hi : s.inbox = a :: rest) : step s = performAction a (s.setInbox rest) := by
  simp [step, machineStep, acceptedAction_idle hp hi]

theorem step_reset {s : State} {rest : List Action} (hi : s.inbox = .reset :: rest) :
    step s = .next (resetBlock (s.setInbox rest)) := by
  simp [step, machineStep, acceptedAction_reset hi, performAction]

theorem step_wait {s : State} {todo : Pending} {sub : Submission} (hp : s.phase = .wait todo sub)
    (hr : noResetNext s) : step s = .next (transportTurn s) := by
  simp [step, machineStep, acceptedAction_wait hp hr]

/-- A run of any machine begins with its first step. -/
theorem coreRun_of_step (M : Host.Core) {s t : M.State} (h : M.step s = .next t) (n : Nat) :
    M.run (n + 1) s = M.run n t := by
  rw [Host.Core.run, h]

/-- A run of any machine is a run and then another. -/
theorem coreRun_add (M : Host.Core) {s t : M.State} {n : Nat} (h : M.run n s = .next t) (m : Nat) :
    M.run (n + m) s = M.run m t := by
  induction n generalizing s with
  | zero =>
    cases h
    rw [Nat.zero_add]
  | succ n ih =>
    rw [Host.Core.run] at h
    rw [Nat.add_right_comm, Host.Core.run]
    cases hs : M.step s <;> rw [hs] at h
    · exact ih h
    · cases h
    · cases h

theorem run_of_step {s t : State} (h : step s = .next t) (n : Nat) :
    Host.Core.run core (n + 1) s = Host.Core.run core n t :=
  coreRun_of_step core h n

theorem run_add {s t : State} {n : Nat} (h : Host.Core.run core n s = .next t) (m : Nat) :
    Host.Core.run core (n + m) s = Host.Core.run core m t :=
  coreRun_add core h m

/-- While the block waits, moves that are no answer are only used up. -/
theorem run_wait (n : Nat) {s : State} {todo : Pending} {sub : Submission} (hp : s.phase = .wait todo sub)
    (hr : noResetNext s) (hn : ∀ b : Answer, Move.answer b ∉ s.transport.take n) :
    Host.Core.run core n s = .next (s.setTransport (s.transport.drop n)) := by
  induction n generalizing s with
  | zero => rfl
  | succ n ih =>
    rcases transportTurn_cases s with ⟨h, hi | ht⟩ | ⟨m, rest, ht, -, -, h⟩ | ⟨_, _, a, rest, -, ht, -⟩
    · rw [hp] at hi
      cases hi
    · rw [run_of_step (step_wait hp hr), h, ih hp hr (by simp [ht]), ht, List.drop_nil, List.drop_nil]
    · rw [run_of_step (step_wait hp hr), h, ht, List.drop_succ_cons]
      exact ih (s := s.setTransport rest) hp hr fun b hb => hn b (by
        rw [ht]
        exact List.mem_cons_of_mem _ hb)
    · exact absurd (by simp [ht]) (hn a)

/-- A bus transaction that the transport answers, sooner or later, ends in the same state but for the moves
used up. -/
theorem busTransaction_run {s : State} {n : Nat} {a : Answer} (todo : Pending) (sub : Submission)
    (h : answersAfter s n a) :
    Host.Core.run core n (busTransaction todo sub s) =
      .next (complete todo a ((submit todo sub s).setTransport (s.transport.drop (n + 1)))) := by
  obtain ⟨quiet, there, next⟩ := h
  cases n with
  | zero =>
    cases ht : s.transport with
    | nil => simp [ht] at there
    | cons m rest =>
      simp only [ht, List.getElem?_cons_zero, Option.some.injEq] at there
      subst there
      rw [busTransaction_answer todo sub ht]
      rfl
  | succ n =>
    cases ht : s.transport with
    | nil => simp [ht] at there
    | cons m rest =>
      rw [ht, List.getElem?_cons_succ] at there
      have first : ∀ b, ¬ answers s b := fun b hb => quiet b (by
        simp only [answers, ht, List.head?_cons, Option.some.injEq] at hb
        simp [ht, hb])
      have resetless : noResetNext (busTransaction todo sub s) := by
        rw [busTransaction_noAnswer _ _ first]
        simpa [noResetNext] using next
      rw [busTransaction_noAnswer _ _ first] at resetless ⊢
      have waited := run_wait n (todo := todo) (sub := sub) (s := (submit todo sub s).setTransport s.transport.tail)
        (by simp) resetless (fun b hb => quiet b (by
          simp only [setTransport_transport, ht, List.tail_cons] at hb
          simp [ht, hb]))
      rw [run_add waited 1, run_of_step (step_wait (todo := todo) (sub := sub) (by simp) (by simpa [noResetNext] using resetless)),
        transportTurn_answer (todo := todo) (sub := sub) (a := a) (rest := rest.drop (n + 1)) (by simp) ?_]
      · rfl
      · rw [setTransport_transport, setTransport_transport, ht, List.tail_cons, List.drop_eq_getElem?_toList_append,
          there]
        rfl

/-- Every way a step can end in a next state. -/
theorem step_cases {s s' : State} (h : step s = .next s') :
    (acceptedAction s = none ∧ s' = transportTurn s) ∨
    (∃ rest, acceptedAction s = some (.reset, rest) ∧ s' = resetBlock (s.setInbox rest)) ∨
    (∃ id reg rest, acceptedAction s = some (.hrd id, rest) ∧ regOf id = some reg ∧
      s' = (s.setInbox rest).answerHost reg (readReg (s.setInbox rest) reg)) ∨
    (∃ id f x rest, acceptedAction s = some (.hwr id (.word x), rest) ∧ regOf id = some (.t f) ∧
      s' = writeT (s.setInbox rest) f x) ∨
    (∃ id f b rest, acceptedAction s = some (.hwr id (.byte b), rest) ∧ regOf id = some (.r f) ∧
      s' = writeR (s.setInbox rest) f b) ∨
    (∃ w i rest, acceptedAction s = some (.hcmd w, rest) ∧ decodeWord w = .ok i ∧
      exec i (s.setInbox rest) = .next s') ∨
    (∃ w e rest, acceptedAction s = some (.hcmd w, rest) ∧ decodeWord w = .error e ∧
      s' = raiseError .illegalCmd (s.setInbox rest)) := by
  unfold step machineStep at h
  split at h
  next a rest ha =>
    cases a with
    | reset => cases h; exact .inr (.inl ⟨rest, ha, rfl⟩)
    | hrd id =>
      simp only [performAction, hostRead] at h
      split at h <;> cases h
      next reg hr => exact .inr (.inr (.inl ⟨id, reg, rest, ha, hr, rfl⟩))
    | hwr id v =>
      simp only [performAction, hostWrite] at h
      split at h <;> cases h
      next f x hr => exact .inr (.inr (.inr (.inl ⟨id, f, x, rest, ha, hr, rfl⟩)))
      next f b hr => exact .inr (.inr (.inr (.inr (.inl ⟨id, f, b, rest, ha, hr, rfl⟩))))
    | hcmd w =>
      simp only [performAction, hostCommand] at h
      split at h
      next i hd => exact .inr (.inr (.inr (.inr (.inr (.inl ⟨w, i, rest, ha, hd, h⟩)))))
      next e hd => cases h; exact .inr (.inr (.inr (.inr (.inr (.inr ⟨w, e, rest, ha, hd, rfl⟩)))))
  next ha => cases h; exact .inl ⟨ha, rfl⟩

end Sys2Proof.Machine
end

