-- ==== Sys2Proof/Tests/Slice0.lean ====
section
/-! SUPPORT. Tests on fixed values, each from the spec's own vectors (95_test_vectors.md, the row named) or
calculated by hand from a rule, and one witness for each hypothesis of a statement. -/

namespace Sys2Proof.Tests

open Sys2Proof.Machine

/-! ### Helpers -/

/-- A calendar time by its seven numbers. -/
def time (s mi h wd d mo y : Int) : Fields Word :=
  { sec := toWord s, min := toWord mi, hour := toWord h, wday := toWord wd, mday := toWord d, mon := toWord mo,
    year := toWord y }

/-- An image by its seven bytes. -/
def image (b0 b1 b2 b3 b4 b5 b6 : Byte) : Image :=
  { sec := b0, min := b1, hour := b2, wday := b3, mday := b4, mon := b5, year := b6 }

/-- The image of all bytes equal. -/
def every (b : Byte) : Image := image b b b b b b b

/-- The start state of 95 sections 3.5 and 3.6, with what lies at the two ports. -/
def start (inbox : List Action) (transport : List Move) : State where
  t := time 1 2 3 4 5 6 107
  r := every 0x11#8
  status := 0x00#8
  phase := .idle
  buf := none
  history := []
  inbox := inbox
  transport := transport
  returned := []

/-- A block that waits for the answer to an `RDTIME`. -/
def waiting (inbox : List Action) (transport : List Move) : State :=
  { start inbox transport with phase := .wait .readTime readSubmission, history := [.submit readSubmission] }

/-- What a next state satisfies; nothing else does. -/
def ends (o : Host.Outcome State Fault Refusal) (p : State → Bool) : Bool :=
  match o with
  | .next t => p t
  | .fault _ => false
  | .refused _ => false

/-- The descriptors of the submissions in a history. -/
def descriptors (h : List Event) : List (List Descriptor) := (submissionsOf h).map Submission.list

/-! ### The command word: every row written out bit by bit (30_encoding.md rules R49, R50) -/

theorem test_word_DEC : decodeWord 0b00000001#8 = .ok .dec := by decide
theorem test_word_ENC : decodeWord 0b00000010#8 = .ok .enc := by decide
theorem test_word_RDREG : decodeWord 0b00000011#8 = .ok .rdreg := by decide
theorem test_word_WRREG : decodeWord 0b00000100#8 = .ok .wrreg := by decide
theorem test_word_RDTIME : decodeWord 0b00000101#8 = .ok .rdtime := by decide
theorem test_word_WRTIME : decodeWord 0b00000110#8 = .ok .wrtime := by decide
theorem test_word_zero : decodeWord 0b00000000#8 = .error .noOperation := by decide
theorem test_word_seven : decodeWord 0b00000111#8 = .error .noOperation := by decide
/-- Rows I3, I4: `op` names an operation but a bit of `zero` is set. -/
theorem test_word_upper_bits :
    decodeWord 0x0E#8 = .error .zeroFieldSet ∧ decodeWord 0x85#8 = .error .zeroFieldSet := by decide
theorem test_table_words :
    [1, 2, 3, 4, 5, 6].map (decodeTableWord 8) =
      [some .dec, some .enc, some .rdreg, some .wrreg, some .rdtime, some .wrtime] := by decide
theorem test_table_no_rows : [0, 7, 8, 14, 133, 255].map (decodeTableWord 8) = List.replicate 6 none := by decide

/-- The host's question for every row: after reset, the next step runs the command. -/
theorem test_fetch_after_reset :
    [1, 2, 3, 4, 5, 6].all (fun w => ends (step (State.reset.withFetchWord 8 w)) fun t => t.inbox == []) = true := by
  decide

/-! ### Well-formedness: an ill-formed term for each check -/

theorem smoke_instr : Instr.wellFormed .wrtime = true := by decide
theorem smoke_hrd_no_register :
    Action.wellFormed (.hrd 0x07) = false ∧ Action.wellFormed (.hrd 0x0F) = false ∧
      Action.wellFormed (.hrd 0x11) = false ∧ Action.wellFormed (.hrd 0x10) = true := by decide
theorem smoke_hwr_no_register : Action.wellFormed (.hwr 0x0F (.byte 0#8)) = false := by decide
theorem smoke_hwr_status : Action.wellFormed (.hwr 0x10 (.byte 0#8)) = false := by decide
theorem smoke_hwr_width :
    Action.wellFormed (.hwr 0x00 (.byte 0#8)) = false ∧ Action.wellFormed (.hwr 0x08 (.word 0#32)) = false ∧
      Action.wellFormed (.hwr 0x06 (.word 0#32)) = true ∧ Action.wellFormed (.hwr 0x0E (.byte 0#8)) = true := by
  decide
theorem smoke_descriptor_length :
    Descriptor.wellFormed (.write 7 [0x00#8]) = false ∧ Descriptor.wellFormed (.write 1 [0x00#8]) = true := by decide
theorem smoke_submission_shapes (a : BusAddr) :
    Submission.wellFormed { dev := a, list := [.read 7] } = false ∧
      Submission.wellFormed { dev := a, list := [.write 1 [0x01#8], .read 7] } = false ∧
      Submission.wellFormed { dev := a, list := [.write 1 [0x00#8], .read 6] } = false ∧
      Submission.wellFormed { dev := a, list := [.write 1 [0x00#8], .write 7 []] } = false ∧
      Submission.wellFormed { dev := a, list := [.write 8 (0x01#8 :: (every 0#8).toList)] } = false := by
  refine ⟨?_, ?_, ?_, ?_, ?_⟩ <;> rfl
theorem smoke_submission_good :
    readSubmission.wellFormed = true ∧ (writeSubmission .split (every 0x11#8)).wellFormed = true ∧
      (writeSubmission .combined (every 0x11#8)).wellFormed = true := by
  refine ⟨?_, ?_, ?_⟩ <;> rfl

/-! ### The byte functions (95 sections 2.1 to 2.3) -/

theorem test_bcdDecode : [0x00#8, 0x0A#8, 0x10#8, 0x59#8, 0x7F#8, 0xA0#8, 0xFF#8].map bcdDecode =
    [0, 10, 10, 59, 85, 100, 165] := by decide
theorem test_bcdEncode_in : [0, 7, 45, 59, 99].map bcdEncode = [0x00#8, 0x07#8, 0x45#8, 0x59#8, 0x99#8] := by decide
theorem test_bcdEncode_out :
    [100, 159, 160, 165, 255, 256, 1000, 2147483648, 4294967196, 4294967295].map bcdEncode =
      [0xA0#8, 0xF9#8, 0x00#8, 0x05#8, 0x95#8, 0x96#8, 0x40#8, 0xC8#8, 0xF6#8, 0x95#8] := by decide

/-! ### DEC (95 section 3.2) and ENC (95 section 3.3) -/

/-- All ones, and the same payload without a reserved bit. -/
theorem test_DEC_all_ones :
    ends (exec .dec { start [] [] with r := every 0xFF#8 }) (fun t => t.t == time 85 85 45 6 45 24 265) = true ∧
      ends (exec .dec { start [] [] with r := image 0x7F#8 0x7F#8 0x3F#8 0x07#8 0x3F#8 0x1F#8 0xFF#8 })
        (fun t => t.t == time 85 85 45 6 45 24 265 && t.status == 0#8) = true := by decide
/-- Reserved bits only: weekday and month are -1. -/
theorem test_DEC_reserved_only :
    ends (exec .dec { start [] [] with r := image 0x80#8 0x80#8 0xC0#8 0xF8#8 0xC0#8 0xE0#8 0x00#8 })
      (fun t => t.t == time 0 0 0 (-1) 0 (-1) 100 && t.t.wday == 0xFFFFFFFF#32) = true := by decide
/-- Row 6: one past each range. -/
theorem test_ENC_past_range :
    ends (exec .enc { start [] [] with t := time 60 60 24 7 32 12 200 })
      (fun t => t.r == image 0x60#8 0x60#8 0x24#8 0x08#8 0x32#8 0x13#8 0xA0#8) = true := by decide
/-- Row 10: negative and wrapping fields. -/
theorem test_ENC_wraps :
    ends (exec .enc { start [] [] with t := time (-1) 256 1000 2147483647 (-2147483648) 99 0 })
      (fun t => t.r == image 0x95#8 0x96#8 0x40#8 0xC8#8 0xC8#8 0xA0#8 0xF6#8) = true := by decide

/-! ### RDREG, WRREG (95 section 3.5) -/

/-- Row S2: verbatim, reserved bits kept. -/
theorem test_RDREG_ok :
    ends (exec .rdreg (start [] [.answer (.ok (image 0xC5#8 0xB0#8 0xE1#8 0xFB#8 0xD5#8 0xE7#8 0x23#8))]))
      (fun t => t.r == image 0xC5#8 0xB0#8 0xE1#8 0xFB#8 0xD5#8 0xE7#8 0x23#8 && t.t == time 1 2 3 4 5 6 107 &&
        t.status == 0#8 && descriptors t.history == [[.write 1 [0x00#8], .read 7]]) = true := by decide
/-- Row S3. -/
theorem test_RDREG_fail :
    ends (exec .rdreg (start [] [.answer .fail]))
      (fun t => t.r == every 0x11#8 && t.status == 1#8 && t.phase == .idle) = true := by decide
/-- Rows S4, S5: the submission in both forms. -/
theorem test_WRREG_submissions :
    (writeSubmission .split (every 0x11#8)).list =
        [.write 1 [0x00#8], .write 7 [0x11#8, 0x11#8, 0x11#8, 0x11#8, 0x11#8, 0x11#8, 0x11#8]] ∧
      (writeSubmission .combined (every 0x11#8)).list =
        [.write 8 [0x00#8, 0x11#8, 0x11#8, 0x11#8, 0x11#8, 0x11#8, 0x11#8, 0x11#8]] := by decide
/-- Row S6. -/
theorem test_WRREG_fail :
    ends (exec .wrreg (start [] [.answer .fail])) (fun t => t.r == every 0x11#8 && t.status == 1#8) = true := by
  decide

/-! ### RDTIME, WRTIME (95 section 3.6) -/

/-- Row C3: bad data is no error. -/
theorem test_RDTIME_zero_bytes :
    ends (exec .rdtime (start [] [.answer (.ok (every 0x00#8))]))
      (fun t => t.t == time 0 0 0 (-1) 0 (-1) 100 && t.r == every 0#8 && t.status == 0#8) = true := by decide
/-- Row F1. -/
theorem test_RDTIME_fail :
    ends (exec .rdtime (start [] [.answer .fail]))
      (fun t => t.t == time 1 2 3 4 5 6 107 && t.r == every 0x11#8 && t.status == 1#8) = true := by decide
/-- Rows C4, C5: `R`, and the bytes the device is sent in either form. -/
theorem test_WRTIME_ok :
    ends (exec .wrtime { start [] [.answer (.ok (every 0#8))] with t := exampleTime })
        (fun t => t.r == exampleImage && t.t == exampleTime && t.status == 0#8) = true ∧
      bytesSent (writeSubmission .split exampleImage) = 0x00#8 :: exampleImage.toList ∧
      bytesSent (writeSubmission .combined exampleImage) = 0x00#8 :: exampleImage.toList := by decide
/-- Row F2: `R` is encoded before the submission. -/
theorem test_WRTIME_fail :
    ends (exec .wrtime { start [] [.answer .fail] with t := exampleTime })
      (fun t => t.r == exampleImage && t.status == 1#8) = true := by decide

/-! ### The host port, illegal words, reset (95 section 3.7) -/

/-- Row H1. -/
theorem test_HWR_WDAY :
    ends (step (start [.hwr 0x03 (.word 2#32)] []))
      (fun t => t.t == time 1 2 3 2 5 6 107 && t.r == every 0x11#8 && t.status == 0#8) = true := by decide
/-- Row H3: `hwr MON, -1` stores the pattern. -/
theorem test_HWR_negative :
    ends (step (start [hwrTLine .mon (-1)] [])) (fun t => t.t.mon == 0xFFFFFFFF#32) = true := by decide
/-- Row H4: no aliasing. -/
theorem test_HWR_RSEC :
    ends (step (start [.hwr 0x08 (.byte 0xD9#8)] []))
      (fun t => t.r.sec == 0xD9#8 && t.r.min == 0x11#8 && t.t == time 1 2 3 4 5 6 107) = true := by decide
/-- Row H5: reading `STATUS` does not clear it. -/
theorem test_HRD_STATUS :
    ends (step { start [.hrd 0x10] [] with status := 1#8 })
      (fun t => t.returned == [(.status, .byte 1#8)] && t.status == 1#8) = true := by decide
theorem test_HRD_ids :
    ends (step (start [.hrd 0x06] [])) (fun t => t.returned == [(.t .year, .word 107#32)]) = true ∧
      ends (step (start [.hrd 0x0E] [])) (fun t => t.returned == [(.r .year, .byte 0x11#8)]) = true := by decide
/-- Rows I1, I3: the word changes `STATUS` and nothing else. -/
theorem test_HCMD_illegal :
    ends (step (start [.hcmd 0x00#8] [])) (fun t => t == { start [] [] with status := 2#8 }) = true ∧
      ends (step (start [.hcmd 0x0E#8] [])) (fun t => t == { start [] [] with status := 2#8 }) = true := by decide
/-- Row I5: `STATUS` is not sticky. -/
theorem test_HCMD_after_illegal :
    ends (step { start [.hcmd 0x01#8] [] with status := 2#8 }) (fun t => t.status == 0#8) = true := by decide
/-- Row S7: no answer leaves the block waiting, `STATUS` not written, and the next step changes nothing. -/
theorem test_never_answers :
    ends (step { start [.hcmd 0x03#8, .hrd 0x10] [] with status := 2#8 })
        (fun t => t.phase != .idle && t.status == 2#8 && t.inbox == [.hrd 0x10]) = true ∧
      ends (step (waiting [.hrd 0x10] [])) (fun t => t.inbox == [.hrd 0x10] && t.returned == []) = true := by
  refine ⟨?_, by decide⟩
  rfl
/-- Row Z1, and R121: reset forgets the submission. -/
theorem test_reset_while_waiting :
    ends (step (waiting [.reset] [.late .fail])) (fun t => t.phase == .idle && t.status == 0#8 && t.inbox == []) = true := by
  decide

/-! ### Witnesses: every hypothesis of a statement is met by a concrete state, at the ends of its range -/

theorem witness_decode : ∃ w i, decodeWord w = .ok i ∧ Instr.wellFormed i = true := ⟨0x06#8, .wrtime, rfl, rfl⟩

/-- `StepRunsTheDecodedCommand`, first clause; `OneSubmissionPerBusCommand`, `EveryCommandHasANextState` need none. -/
theorem witness_open_port :
    (start [.hcmd 0x01#8] []).phase = .idle ∧ (start [.hcmd 0x01#8] []).inbox = .hcmd 0x01#8 :: [] ∧
      decodeWord 0x01#8 = .ok .dec := ⟨rfl, rfl, rfl⟩

/-- A waiting block whose next action is a command, a read or a write, and where no reset is next: the waiting
clauses of `StepRunsTheDecodedCommand`, `HostReadReturnsTheRegister`, `HostWriteWritesOneRegister`,
`HostPortIsClosedWhileWaiting`. -/
theorem witness_closed_port :
    (∀ l m, (waiting l m).phase = .wait .readTime readSubmission ∧ (waiting l m).inbox = l) ∧
      noResetNext (waiting [.hcmd 0x05#8] []) ∧ noResetNext (waiting [.hrd 0x00] []) ∧
      noResetNext (waiting [.hwr 0x00 (.word 0#32)] []) ∧ noResetNext (waiting [] []) := by
  refine ⟨fun _ _ => ⟨rfl, rfl⟩, ?_, ?_, ?_, ?_⟩ <;> simp [noResetNext, waiting, start]

/-- `IllegalWordOnlySetsStatus`: one word for each alternative, and a legal one. -/
theorem witness_illegal_words :
    (0x00#8 : Byte).extractLsb' 0 3 = 0b000#3 ∧ (0x07#8 : Byte).extractLsb' 0 3 = 0b111#3 ∧
      (0x0E#8 : Byte).extractLsb' 3 5 ≠ 0#5 ∧ (0x80#8 : Byte).extractLsb' 3 5 ≠ 0#5 ∧
      ¬((0x06#8 : Byte).extractLsb' 0 3 = 0b000#3 ∨ (0x06#8 : Byte).extractLsb' 0 3 = 0b111#3 ∨
        (0x06#8 : Byte).extractLsb' 3 5 ≠ 0#5) := by decide

/-- `BcdDecodeIsTotal`, `BcdRoundTrips`: the ends of the well-formed bytes; the ends of the bytes with a twin. -/
theorem witness_bcd_bytes :
    bcdWellFormed 0x00#8 = true ∧ bcdWellFormed 0x99#8 = true ∧ bcdWellFormed 0x0A#8 = false ∧
      (0xA ≤ ((0x0A#8 : Byte).extractLsb' 0 4).toNat ∧ ((0x0A#8 : Byte).extractLsb' 4 4).toNat ≤ 0xE) ∧
      (0xA ≤ ((0xEF#8 : Byte).extractLsb' 0 4).toNat ∧ ((0xEF#8 : Byte).extractLsb' 4 4).toNat ≤ 0xE) := by decide

/-- `BcdEncodeInContract`, `BcdEncodeOutOfContract`, `BcdRoundTrips`, `DecodeRanges`: numbers at the ends of the bands. -/
theorem witness_bands :
    (0 ≤ 99 ∧ 99 ≤ 99) ∧ (100 ≤ 100 ∧ 100 ≤ 159) ∧ (100 ≤ 159 ∧ 159 ≤ 159) ∧ 160 ≤ 160 ∧
      (4294967295 ≤ 2 ^ 32 - 1) ∧ (85 ≤ 85 ∧ 45 ≤ 45) := by decide

/-- `DecWritesTheDecodedTime`: empty weekday and month payloads beside set reserved bits. -/
theorem witness_empty_payloads :
    (0x08#8 : Byte) &&& 0x07#8 = 0#8 ∧ (0x20#8 : Byte) &&& 0x1F#8 = 0#8 := by decide

/-- `EncWritesTheEncodedImage`: each named field value is one a register can hold. -/
theorem witness_enc_values :
    (time 80 0 0 (-1) 0 0 99).sec = 80#32 ∧ (time 80 0 0 (-1) 0 0 99).wday = 0xFFFFFFFF#32 ∧
      (time 80 0 0 (-1) 0 0 99).year = 99#32 ∧ (time 0 0 0 0 0 0 0).year = 0#32 ∧
      (time 0 0 0 2147483647 0 0 0).wday = 0x7FFFFFFF#32 := by decide

/-- Every frame and every `exec i s = .next t`: each command of each state has such a `t`. -/
theorem witness_next (s : State) :
    (∃ t, exec .dec s = .next t) ∧ (∃ t, exec .enc s = .next t) ∧ (∃ t, exec .rdreg s = .next t) ∧
      (∃ t, exec .wrreg s = .next t) ∧ (∃ t, exec .rdtime s = .next t) ∧ (∃ t, exec .wrtime s = .next t) :=
  ⟨⟨_, rfl⟩, ⟨_, rfl⟩, ⟨_, rfl⟩, ⟨_, rfl⟩, ⟨_, rfl⟩, ⟨_, rfl⟩⟩

/-- `DecodeIgnoresReservedBits`: two different images that agree inside the masks. -/
theorem witness_reserved_bits :
    every 0x00#8 ≠ image 0x80#8 0x80#8 0xC0#8 0xF8#8 0xC0#8 0xE0#8 0x00#8 ∧
      ∀ f : Field, (image 0x80#8 0x80#8 0xC0#8 0xF8#8 0xC0#8 0xE0#8 0x00#8).get f &&& payloadMask.get f =
        (every 0x00#8).get f &&& payloadMask.get f := by
  refine ⟨by decide, fun f => ?_⟩
  cases f <;> decide

/-- `DecAfterEncRestoresTheTime`, `InContractImageStaysInsideMasks`, `SetThenReadRestoresTheTime`: both ends of
the contract. -/
theorem witness_contract :
    inContract (time 0 0 0 0 1 0 100) ∧ inContract (time 59 59 23 6 31 11 199) := by
  unfold inContract
  decide

/-- The transport answers at once: every statement that says so. -/
theorem witness_answers (l : List Action) (d : Image) :
    answers (start l [.answer (.ok d)]) (.ok d) ∧ answers (start l [.answer .fail]) .fail ∧
      answers (waiting l [.answer .fail]) .fail := ⟨rfl, rfl, rfl⟩

/-- The transport answers at once, even with a reset next, or after two moves: `RdregReadsTheRegisterBlock`,
`WrregSendsTheRawImage`, `RdtimeReadsTheCalendarTime`, `WrtimeSendsTheEncodedTime`. -/
theorem witness_answers_after (a : Answer) :
    answersAfter (start [.reset] [.answer a]) 0 a ∧
      answersAfter (start [.hrd 0x10] [.silent, .late .fail, .answer a]) 2 a := by
  refine ⟨⟨?_, rfl, .inl rfl⟩, ⟨?_, rfl, .inr ?_⟩⟩ <;> simp [start, noResetNext]

/-- The transport does not answer yet: `BusCommandsWaitForTheAnswer`. -/
theorem witness_no_answer :
    (∀ a, ¬ answers (start [] []) a) ∧ (∀ a, ¬ answers (start [] [.silent]) a) ∧
      (∀ a, ¬ answers (start [] [.late .fail, .answer .fail]) a) := by
  refine ⟨?_, ?_, ?_⟩ <;> intro a <;> simp [answers, start]

/-- `RdtimeReadsTheCalendarTime`, last clause: an `RDREG` that ends with 0 and one that does not. -/
theorem witness_rdreg_ends :
    (∃ t, exec .rdreg (start [] [.answer (.ok exampleImage)]) = .next t ∧ t.phase = .idle ∧ t.status = 0x00#8) ∧
      (∃ t, exec .rdreg (start [] [.answer .fail]) = .next t ∧ t.phase = .idle ∧ t.status ≠ 0x00#8) :=
  ⟨⟨_, rfl, rfl, rfl⟩, ⟨_, rfl, rfl, by decide⟩⟩

/-- `OnlyAnAnswerEndsTheWait`, `AnsweredOperationCompletes`: a wait with two moves before the answer, and one
without an end. -/
theorem witness_waiting :
    neverAnswers ((waiting [.hrd 0x00] [.silent, .late .fail, .answer .fail]).transport.take 2) ∧
      (waiting [.hrd 0x00] [.silent, .late .fail, .answer .fail]).transport =
        [.silent, .late .fail] ++ .answer .fail :: [] ∧
      neverAnswers (waiting [.hrd 0x00] [.silent]).transport ∧ neverAnswers (waiting [] []).transport := by
  refine ⟨?_, rfl, ?_, ?_⟩ <;> simp [neverAnswers, waiting, start]

/-- `SetThenReadRestoresTheTime`: a write answered after one move and a read answered after two, both ending
with 0, the read returning what was written. -/
theorem witness_set_then_read :
    ∃ u1 s1 u2 s2 : State,
      let s : State := { start [] [.silent, .answer (.ok (every 0#8)), .silent, .late .fail,
        .answer (.ok exampleImage)] with t := exampleTime }
      inContract s.t ∧ answersAfter s 1 (.ok (every 0#8)) ∧ exec .wrtime s = .next u1 ∧
      Host.Core.run core 1 u1 = .next s1 ∧ s1.status = 0x00#8 ∧ answersAfter s1 2 (.ok exampleImage) ∧
      exec .rdtime s1 = .next u2 ∧ Host.Core.run core 2 u2 = .next s2 ∧ s2.status = 0x00#8 ∧
      deviceConsistent none none (s2.history.drop s.history.length) := by
  refine ⟨_, _, _, _, ?_, ⟨?_, rfl, .inr ?_⟩, rfl, rfl, rfl, ⟨?_, rfl, .inr ?_⟩, rfl, rfl, rfl, ?_⟩
  · unfold inContract
    decide
  · simp [start]
  · simp [start, noResetNext]
  · intro b
    change _ ∉ [Move.silent, .late .fail]
    simp
  · change ([] : List Action).head? ≠ _
    simp
  · change deviceConsistent none none [.submit (writeSubmission Config.wrMode (encodeTime exampleTime)),
      .complete .ok none, .submit readSubmission, .complete .ok (some exampleImage)]
    have enc : encodeTime exampleTime = exampleImage := by decide
    simp [deviceConsistent, enc]

/-- R91 by hand: a read after an `OK` read or write must return the same; after a failed read, a failed write or
a submission forgotten by a reset it may return anything. -/
theorem test_device_history (m : WrMode) (held other : Image) (differ : other ≠ held) :
    let read (d : Image) : List Event := [.submit readSubmission, .complete .ok (some d)]
    ¬ deviceConsistent none none (read held ++ read other) ∧
      ¬ deviceConsistent none none ([.submit (writeSubmission m held), .complete .ok none] ++ read other) ∧
      deviceConsistent (some held) none ([.submit readSubmission, .complete .fail none] ++ read other) ∧
      deviceConsistent (some held) none ([.submit (writeSubmission m held), .complete .fail none] ++ read other) ∧
      deviceConsistent (some held) none (.submit (writeSubmission m held) :: read other) := by
  simp [deviceConsistent, differ]

/-- `HostReadReturnsTheRegister`, `HostWriteWritesOneRegister`, `OnlyIllFormedActionsAreRefused`: an open port with
each kind of action, at both ends of each file, and the three kinds that are refused. -/
theorem witness_actions :
    (∀ l, (start l []).phase = .idle ∧ (start l []).inbox = l) ∧
      fieldIndex .sec = 0x00 ∧ fieldIndex .year = 0x06 ∧ 0x08 + fieldIndex .sec = 0x08 ∧ 0x08 + fieldIndex .year = 0x0E ∧
      regOf 0x07 = none ∧ regOf 0x0F = none ∧ regOf 0x11 = none ∧
      Action.wellFormed (.hrd 0x07) = false ∧ Action.wellFormed (.hwr 0x10 (.byte 0#8)) = false ∧
      Action.wellFormed (.hwr 0x00 (.byte 0#8)) = false := by
  refine ⟨fun l => ⟨rfl, rfl⟩, ?_⟩
  decide

/-- `ShorthandsLoadAWholeFile`. -/
theorem witness_shorthands :
    (start (settime { sec := 1, min := 2, hour := 3, wday := -1, mday := 5, mon := 6, year := 107 } ++ [.hrd 0]) []).phase =
        .idle ∧
      (start (setraw exampleImage ++ []) []).inbox = setraw exampleImage ++ [] := ⟨rfl, rfl⟩

/-- `ResetEventInAnyPhase`: a reset that is next in either phase, and a late answer that is next. -/
theorem witness_reset :
    (start [.reset] []).inbox = .reset :: [] ∧ (waiting [.reset] []).inbox = .reset :: [] ∧
      (waiting [] [.late .fail]).transport = .late .fail :: [] ∧ noResetNext (waiting [] [.late .fail]) := by
  refine ⟨rfl, rfl, rfl, ?_⟩
  simp [noResetNext, waiting, start]

/-- `StepKeepsTheInvariant`, `RegistersHaveOnlyTheirWriters`, `OnlyBusCommandsSubmit`: an idle state and a waiting
state that meet the invariant and step on. -/
theorem witness_invariant :
    ((start [.hcmd 0x05#8] []).Inv ∧ ∃ t, step (start [.hcmd 0x05#8] []) = .next t) ∧
      ((waiting [] [.answer .fail]).Inv ∧ ∃ t, step (waiting [] [.answer .fail]) = .next t) := by
  refine ⟨⟨⟨⟨.ok, rfl⟩, ?_, ?_, ?_, trivial⟩, _, rfl⟩, ⟨⟨⟨.ok, rfl⟩, ?_, ?_, ?_, ?_⟩, _, rfl⟩⟩
  · intro _ _ h; cases h
  · intro _ _ h; cases h
  · intro _ _ h; cases h
  · intro _ _ h; cases h; rfl
  · intro _ _ h _; rfl
  · intro _ _ h; cases h; rfl
  · exact ⟨.inl rfl, trivial⟩

end Sys2Proof.Tests
end

section
/-! The command word (30_encoding.md): which words name no operation, what a step does with one of them, and the
statements about the encoding that rest on it. -/

namespace Sys2Proof

open Machine

/-! ### Which words name no operation (R53) -/

theorem toBool_eq_false_iff {ε α : Type} (x : Except ε α) : x.toBool = false ↔ ∃ e, x = .error e := by
  cases x <;> simp [Except.toBool]

/-- The two operation numbers that R50 leaves unused. -/
theorem decodeOp_error_iff (op : BitVec 3) : (∃ e, decodeOp op = .error e) ↔ op = 0b000#3 ∨ op = 0b111#3 := by
  have all : ∀ op : BitVec 3, (decodeOp op).toBool = false ↔ op = 0b000#3 ∨ op = 0b111#3 := by decide
  rw [← all op, toBool_eq_false_iff]

/-- R53 by the two fields of the word. -/
theorem decodeWord_error_iff (w : Byte) :
    (∃ e, decodeWord w = .error e) ↔ opField w = 0b000#3 ∨ opField w = 0b111#3 ∨ zeroField w ≠ 0#5 := by
  by_cases hz : zeroField w = 0#5
  · rw [decodeWord_of_zeroField hz, decodeOp_error_iff]
    simp [hz]
  · simp [decodeWord_of_zeroField_ne hz, hz]

/-- R53 by the word's number: 1 to 6 are the words that name an operation. -/
theorem decodeWord_toBool_eq_false_iff (w : Byte) :
    (decodeWord w).toBool = false ↔ w.toNat = 0 ∨ 7 ≤ w.toNat := by
  have hop : (opField w).toNat = w.toNat % 8 := by rw [opField, slice_toNat]; omega
  have hzero : (zeroField w).toNat = w.toNat / 8 % 32 := slice_toNat w 3 5
  have := w.isLt
  rw [toBool_eq_false_iff, decodeWord_error_iff, ← BitVec.toNat_inj, ← BitVec.toNat_inj, ne_eq,
    ← BitVec.toNat_inj, hop, hzero]
  simp only [BitVec.toNat_ofNat]
  omega

/-- Of the 256 words, the first and all from the eighth on name no operation. -/
theorem illegalWords_length :
    ((List.range 256).filter fun n => (decodeWord (BitVec.ofNat 8 n)).toBool = false).length = 250 := by
  have byNumber : ∀ n ∈ List.range 256,
      decide ((decodeWord (BitVec.ofNat 8 n)).toBool = false) = decide (n = 0 ∨ 7 ≤ n) := by
    intro n hn
    rw [decide_eq_decide, decodeWord_toBool_eq_false_iff, BitVec.toNat_ofNat,
      Nat.mod_eq_of_lt (List.mem_range.1 hn)]
  have cut : List.range 256 = List.range 7 ++ (List.range 249).map (7 + ·) :=
    List.range_add (n := 7) (m := 249)
  have low : (List.range 7).filter (fun n => decide (n = 0 ∨ 7 ≤ n)) = [0] := by decide
  have high : ((List.range 249).map (7 + ·)).filter (fun n => decide (n = 0 ∨ 7 ≤ n)) =
      (List.range 249).map (7 + ·) := List.filter_eq_self.2 (by simp)
  rw [List.filter_congr byNumber, cut, List.filter_append, low, high, List.length_append, List.length_map,
    List.length_range, List.length_singleton]

/-! ### What a step does with a word that names no operation (R107) -/

namespace Machine

/-- In `IDLE`, raising an error only writes `STATUS`. -/
theorem raiseError_idle {s : State} (hp : s.phase = .idle) (c : StatusCode) : raiseError c s = s.setStatus c := by
  unfold raiseError State.setPhase
  rw [← hp]
  rfl

theorem step_illegalCommand {s : State} {w : Byte} {rest : List Action} {e : DecodeReject} (hp : s.phase = .idle)
    (hi : s.inbox = .hcmd w :: rest) (hd : decodeWord w = .error e) :
    step s = .next ((s.setInbox rest).setStatus .illegalCmd) := by
  rw [step_idle hp hi, performAction, hostCommand, hd, ← raiseError_idle (s := s.setInbox rest) hp]

end Machine

/-! ### The statements -/

/-- Settles O4: R53 by the word's fields, the step on a rejected word, and the count by the word's number. -/
theorem illegalWordOnlySetsStatus : Obligations.IllegalWordOnlySetsStatus := by
  refine ⟨fun s w rest hp hi illegal => ?_, fun w legal => ?_, illegalWords_length⟩
  · obtain ⟨e, he⟩ := (decodeWord_error_iff w).2 illegal
    exact step_illegalCommand hp hi he
  · cases hd : decodeWord w with
    | ok i => exact ⟨i, rfl⟩
    | error e => exact absurd ((decodeWord_error_iff w).1 ⟨e, hd⟩) legal

/-- Settles O1: six of the words are the encodings of the commands, and the other two carry an unused number. -/
theorem commandWordsFollowTheMap : Obligations.CommandWordsFollowTheMap :=
  ⟨Laws.RoundTrip.dec rfl, Laws.RoundTrip.enc rfl, Laws.RoundTrip.rdreg rfl, Laws.RoundTrip.wrreg rfl,
    Laws.RoundTrip.rdtime rfl, Laws.RoundTrip.wrtime rfl, rfl, rfl⟩

/-- Settles O41: each line of a shorthand is the host write of its register's id. -/
theorem shorthandsExpandInOrder : Obligations.ShorthandsExpandInOrder :=
  ⟨fun _ _ _ _ _ _ _ => rfl, fun _ _ _ _ _ _ _ => rfl⟩

end Sys2Proof
end

section
/-! The codec (40_codec.md): the digits of a `bcd_encode` byte, the decoded and the encoded fields as plain
numbers, the status an answered transaction ends with, and the statements about the codec that rest on them. -/

namespace Sys2Proof.Machine

/-! ### The two digits of `bcd_encode` (R61, R62) -/

/-- The tens digit is cut to a nibble in every band (R62). -/
theorem bcdEncode_highNibble (u : Nat) : ((bcdEncode u).extractLsb' 4 4).toNat = u / 10 % 16 := by
  rw [slice_toNat, bcdEncode_toNat, truncatedBcd]
  omega

theorem bcdEncode_lowNibble (u : Nat) : ((bcdEncode u).extractLsb' 0 4).toNat = u % 10 := by
  rw [slice_toNat, bcdEncode_toNat, truncatedBcd]
  omega

/-- The source's formula with the tens digit cut to a nibble, before any truncation to a byte (R62). -/
theorem bcdEncode_toNat_eq_or (u : Nat) : (bcdEncode u).toNat = ((u / 10 % 16) <<< 4) ||| (u % 10) := by
  rw [bcdEncode_toNat, digits_or _ _ (by omega), truncatedBcd]

theorem bcdEncode_wellFormed {u : Nat} (h : u ≤ 99) : bcdWellFormed (bcdEncode u) = true := by
  rw [bcdWellFormed_iff, bcdEncode_toNat, truncatedBcd]
  omega

/-! ### The decoded time (R63, R64, R75) -/

/-- An empty weekday payload decodes to the pattern of -1 (R64). -/
theorem decodeToT_wday_of_empty {raw : Image} (h : raw.wday &&& 0x07#8 = 0#8) :
    (decodeToT raw).wday = 0xFFFFFFFF#32 := by
  obtain ⟨-, -, -, wday, -⟩ := decodeToT_toInt raw
  have empty : raw.wday.toNat % 8 = 0 := by rw [← and_0x07_toNat, h]; rfl
  apply BitVec.eq_of_toInt_eq
  rw [wday, show (0xFFFFFFFF#32).toInt = -1 from rfl]
  omega

/-- An empty month payload decodes to the pattern of -1 (R64). -/
theorem decodeToT_mon_of_empty {raw : Image} (h : raw.mon &&& 0x1F#8 = 0#8) :
    (decodeToT raw).mon = 0xFFFFFFFF#32 := by
  obtain ⟨-, -, -, -, -, mon, -⟩ := decodeToT_toInt raw
  have empty : raw.mon.toNat % 32 = 0 := by rw [← and_0x1F_toNat, h]; rfl
  apply BitVec.eq_of_toInt_eq
  rw [mon, show (0xFFFFFFFF#32).toInt = -1 from rfl]
  omega

/-! ### The encoded image (R65, R66) -/

/-- A register holds an integer as its `u_TW` pattern (R9). -/
theorem toWord_toNat (v : Int) : (toWord v).toNat = patternOf v := by
  rw [toWord, BitVec.toNat_ofInt, patternOf]
  rfl

/-- A register with an offset, as `encode` computes it, holds the pattern of the integer with that offset. -/
theorem patternOf_toInt_add (w : Word) (k : Int) : patternOf (w.toInt + k) = (w + toWord k).toNat := by
  rw [← toWord_toNat, toWord, BitVec.ofInt_add, BitVec.ofInt_toInt, toWord]

/-- The encoded image, each byte as R62's of R66's argument. -/
theorem encodeTime_toNat_patternOf (t : Fields Word) :
    (encodeTime t).sec.toNat = truncatedBcd (patternOf t.sec.toInt) ∧
    (encodeTime t).min.toNat = truncatedBcd (patternOf t.min.toInt) ∧
    (encodeTime t).hour.toNat = truncatedBcd (patternOf t.hour.toInt) ∧
    (encodeTime t).wday.toNat = truncatedBcd (patternOf (t.wday.toInt + 1)) ∧
    (encodeTime t).mday.toNat = truncatedBcd (patternOf t.mday.toInt) ∧
    (encodeTime t).mon.toNat = truncatedBcd (patternOf (t.mon.toInt + 1)) ∧
    (encodeTime t).year.toNat = truncatedBcd (patternOf (t.year.toInt - 100)) := by
  have minus : t.year - 100#32 = t.year + toWord (-100) := BitVec.sub_eq_add_neg ..
  have one : toWord 1 = 1#32 := rfl
  simp only [encodeTime, bcdEncode_toNat, patternOf_toInt, Int.sub_eq_add_neg, patternOf_toInt_add, minus, one,
    and_self]

/-! ### The status of an answered transaction (R82, R84, R69) -/

/-- The code a bus operation ends with, by the transport's answer alone. -/
def endCode : Answer → StatusCode
  | .ok _ => .ok
  | .fail => .transportFailure

theorem busTransaction_status_of_answers {s : State} {a : Answer} (todo : Pending) (sub : Submission)
    (h : answers s a) : (busTransaction todo sub s).status = (endCode a).byte := by
  obtain ⟨rest, ht⟩ := answers_iff.1 h
  rw [busTransaction_answer todo sub ht, complete_status]
  cases a <;> rfl

end Sys2Proof.Machine

/-! ### The statements -/

namespace Sys2Proof

open Machine

/-- Settles O8: every band is `truncatedBcd`, whose tens digit is cut to a nibble from 160 on. -/
theorem bcdEncodeOutOfContract : Obligations.BcdEncodeOutOfContract := by
  refine ⟨fun u _ => ⟨BitVec.toNat_ofNat _ 8, bcdEncode_toNat_eq_or u, bcdEncode_lowNibble u⟩,
    fun u lo hi => ⟨?_, ?_⟩, fun u lo => ?_, rfl, rfl, rfl, rfl, rfl, rfl, rfl⟩
  · rw [bcdEncode_toNat_eq_or, Nat.mod_eq_of_lt (show u / 10 < 16 by omega)]
  · rw [bcdEncode_highNibble]
    omega
  · rw [digits_or _ _ (by omega)]
    omega

/-- Settles O10: the digits are the slices of each masked byte; an empty payload is -1. -/
theorem decWritesTheDecodedTime : Obligations.DecWritesTheDecodedTime := by
  refine ⟨Laws.RoundTrip.dec rfl, fun _ => rfl, fun raw => ?_, rfl⟩
  obtain ⟨sec, min, hour, wday, mday, mon, year⟩ := decodeToT_toInt raw
  have := raw.year.isLt
  simp only [slice_toNat, sec, min, hour, wday, mday, mon, year]
  refine ⟨?_, ?_, ?_, ?_, ?_, ?_, ?_, decodeToT_wday_of_empty, decodeToT_mon_of_empty⟩ <;> omega

/-- Settles O11: each byte is R62's of its argument; the named values are calculated. -/
theorem encWritesTheEncodedImage : Obligations.EncWritesTheEncodedImage := by
  refine ⟨Laws.RoundTrip.enc rfl, fun _ => rfl, fun t => ?_, rfl⟩
  obtain ⟨sec, min, hour, wday, mday, mon, year⟩ := encodeTime_toNat_patternOf t
  refine ⟨sec, min, hour, wday, mday, mon, year, ?_, ?_, ?_, ?_, ?_⟩ <;>
  · intro h
    rw [encodeTime, h]
    rfl

/-- Settles O13: `DEC` and `ENC` write 0, and an answered bus command's status depends on the answer alone. -/
theorem codecRaisesNoError : Obligations.CodecRaisesNoError := by
  refine ⟨fun s => ⟨_, _, rfl, rfl, rfl, rfl⟩, fun s a h => ⟨_, _, _, _, rfl, rfl, rfl, rfl, ?_⟩⟩
  have encoded : answers (s.setR (encodeTime s.t)) a := h
  simp only [busTransaction_status_of_answers _ _ h, busTransaction_status_of_answers _ _ encoded, true_and,
    and_true]
  cases a <;> rfl

/-- Settles O16: `decode` reads each byte through its mask; the year's mask keeps the whole byte. -/
theorem decodeIgnoresReservedBits : Obligations.DecodeIgnoresReservedBits := by
  intro raw raw' agree
  have sec : raw'.sec &&& 0x7F#8 = raw.sec &&& 0x7F#8 := agree .sec
  have min : raw'.min &&& 0x7F#8 = raw.min &&& 0x7F#8 := agree .min
  have hour : raw'.hour &&& 0x3F#8 = raw.hour &&& 0x3F#8 := agree .hour
  have wday : raw'.wday &&& 0x07#8 = raw.wday &&& 0x07#8 := agree .wday
  have mday : raw'.mday &&& 0x3F#8 = raw.mday &&& 0x3F#8 := agree .mday
  have mon : raw'.mon &&& 0x1F#8 = raw.mon &&& 0x1F#8 := agree .mon
  have year : raw'.year = raw.year := by rw [← and_0xFF raw'.year, ← and_0xFF raw.year]; exact agree .year
  simp only [decodeImage, sec, min, hour, wday, mday, mon, year]

/-- Settles O7: up to 99 the tens digit fits its nibble. -/
theorem bcdEncodeInContract : Obligations.BcdEncodeInContract := by
  refine ⟨fun u h => ⟨?_, bcdEncode_lowNibble u, bcdEncode_wellFormed h⟩, rfl, rfl, rfl, rfl⟩
  rw [bcdEncode_highNibble]
  omega

end Sys2Proof
end

section
/-! The bus sequencer (41_bus_sequencer.md): how an answered transaction ends, how a failed one ends, how long a
wait lasts, and the statements about the bus commands that rest on them. -/

namespace Sys2Proof.Machine

/-! ### How an answered transaction ends (R82, R84, R91) -/

/-- The status byte of the answer, as the statements about the commands write it. -/
theorem endCode_byte (a : Answer) : (endCode a).byte = (match a with | .ok _ => 0x00#8 | .fail => 0x01#8) := by
  cases a <;> rfl

/-- A write's completion carries no bytes, whatever the answer. -/
theorem completion_write (a : Answer) :
    completion .write a = .complete (match a with | .ok _ => .ok | .fail => .fail) none := by
  cases a <;> rfl

/-- A write's completion leaves `R` and `T` alone, whatever the answer. -/
theorem complete_write_registers (a : Answer) (s : State) :
    (complete .write a s).r = s.r ∧ (complete .write a s).t = s.t := by
  cases a <;> exact ⟨rfl, rfl⟩

/-- What every transaction answered after `n` moves ends with, whatever its operation and its answer: `STATUS`, the
port open, its two events, and the registers that the completion leaves. -/
theorem busTransaction_ends {s : State} {n : Nat} {a : Answer} (todo : Pending) (sub : Submission)
    (h : answersAfter s n a) :
    ∃ t, Host.Core.run core n (busTransaction todo sub s) = .next t ∧ t.phase = .idle ∧
      t.status = (endCode a).byte ∧ t.history = s.history ++ [.submit sub, completion todo a] ∧
      t.r = (complete todo a s).r ∧ t.t = (complete todo a s).t := by
  refine ⟨_, busTransaction_run todo sub h, complete_phase .., ?_, ?_, ?_, ?_⟩
  · exact (complete_status ..).trans (endCode_byte a).symm
  · simp
  · simp [complete_r]
  · simp [complete_t]

/-! ### How a failed transaction ends (R87, R106) -/

/-- What is left of an operation in flight that the transport fails. -/
theorem transportTurn_fail {s : State} {todo : Pending} {sub : Submission} (hp : s.phase = .wait todo sub)
    (h : answers s .fail) :
    (transportTurn s).status = 0x01#8 ∧ (transportTurn s).phase = .idle ∧ (transportTurn s).t = s.t ∧
      (transportTurn s).r = s.r := by
  obtain ⟨rest, ht⟩ := answers_iff.1 h
  rw [transportTurn_answer hp ht]
  exact ⟨rfl, rfl, rfl, rfl⟩

/-- A transaction that the transport fails at once is its submission and then the failing turn. -/
theorem busTransaction_fail {s : State} (todo : Pending) (sub : Submission) (h : answers s .fail) :
    (busTransaction todo sub s).status = 0x01#8 ∧ (busTransaction todo sub s).phase = .idle ∧
      (busTransaction todo sub s).t = s.t ∧ (busTransaction todo sub s).r = s.r ∧
      submissionsOf (busTransaction todo sub s).history = submissionsOf s.history ++ [sub] := by
  have submitted : answers (submit todo sub s) .fail := by simpa [answers] using h
  obtain ⟨status, phase, t, r⟩ := transportTurn_fail (submit_phase todo sub s) submitted
  exact ⟨status, phase, t.trans (submit_t ..), r.trans (submit_r ..), busTransaction_submissions ..⟩

/-! ### How long a wait lasts (R88) -/

theorem neverAnswers_take {moves : List Move} (h : neverAnswers moves) (n : Nat) : neverAnswers (moves.take n) :=
  fun a ha => h a (List.mem_of_mem_take ha)

end Sys2Proof.Machine

/-! ### The statements -/

namespace Sys2Proof

open Machine

/-- Settles O22: the answered transaction of a read; on `OK` the completion copies the bytes to `R`. -/
theorem rdregReadsTheRegisterBlock : Obligations.RdregReadsTheRegisterBlock := by
  refine ⟨Laws.RoundTrip.rdreg rfl, fun s n d h => ?_, fun s n h => ?_⟩
  all_goals
    obtain ⟨t, ran, phase, status, history, r, tt⟩ := busTransaction_ends .readRaw readSubmission h
    exact ⟨_, t, rfl, ran, r, tt, status, phase, history⟩

/-- Settles O23: the answered transaction of a write, its submission written out in either form. -/
theorem wrregSendsTheRawImage : Obligations.WrregSendsTheRawImage := by
  refine ⟨Laws.RoundTrip.wrreg rfl, fun s n a h => ?_⟩
  obtain ⟨t, ran, phase, status, history, r, tt⟩ :=
    busTransaction_ends .write (writeSubmission Config.wrMode s.r) h
  obtain ⟨keepsR, keepsT⟩ := complete_write_registers a s
  rw [completion_write] at history
  exact ⟨_, t, rfl, ran, r.trans keepsR, tt.trans keepsT, phase, status.trans (endCode_byte a), history⟩

/-- Settles O28: each bus command is one transaction, and the codec's commands are none. -/
theorem oneSubmissionPerBusCommand : Obligations.OneSubmissionPerBusCommand := by
  refine fun s t => ⟨?rdreg, ?rdtime, ?wrreg, ?wrtime, ?codec⟩
  case codec => rintro (h | h) <;> cases h <;> rfl
  all_goals
    rintro ⟨⟩
    exact busTransaction_submissions ..

/-- Settles O30: a command failed at once is a failed transaction (`WRTIME` writes `R` before it), and a failed wait
is the failing turn. -/
theorem transportFailureEndsTheCommand : Obligations.TransportFailureEndsTheCommand := by
  refine fun s h => ⟨?_, ?_, fun todo sub hp hr => ?_⟩
  · rintro i (rfl | rfl | rfl) <;> exact ⟨_, _, rfl, busTransaction_fail _ _ h⟩
  · exact ⟨_, _, rfl, busTransaction_fail (s := s.setR (encodeTime s.t)) _ _ h⟩
  · obtain ⟨status, phase, t, r⟩ := transportTurn_fail hp h
    exact ⟨_, step_wait hp hr, status, phase, t, r, transportTurn_submissions s⟩

/-- Settles O31: moves that are no answer are only used up, and a transport that never answers has no others. -/
theorem onlyAnAnswerEndsTheWait : Obligations.OnlyAnAnswerEndsTheWait := by
  refine ⟨fun s n todo sub hp hr quiet => run_wait n hp hr quiet, fun s todo sub hp hr silent n => ?_⟩
  exact ⟨_, run_wait n hp hr (neverAnswers_take silent n), hp, rfl, rfl, rfl, rfl⟩

end Sys2Proof
end

section
/-! The calendar operations and the host port (42_calendar_ops.md): `RDTIME` and `WRTIME` as two commands in a row,
what a host read and a host write do by the register their id names, the port closed, and the statements that rest on
them. -/

namespace Sys2Proof.Machine

/-! ### `RDTIME` as `RDREG` and then `DEC` (R95) -/

theorem setTransport_setPhase (s : State) (p : Phase) (l : List Move) :
    (s.setPhase p).setTransport l = (s.setTransport l).setPhase p := rfl

/-- The end of an operation sets `PHASE`, whatever it was. -/
@[simp] theorem complete_setPhase (todo : Pending) (a : Answer) (s : State) (p : Phase) :
    complete todo a (s.setPhase p) = complete todo a s := by
  cases a <;> cases todo <;> rfl

/-- The two reads submit alike, but for what `PHASE` says is left to do. -/
theorem submit_readTime (sub : Submission) (s : State) :
    submit .readTime sub s = (submit .readRaw sub s).setPhase (.wait .readTime sub) := rfl

/-- On `OK`, `DEC` does what the end of an `RDTIME` does beyond that of an `RDREG`. -/
theorem execDec_complete_readRaw_ok (d : Image) (s : State) :
    execDec (complete .readRaw (.ok d) s) = .next (complete .readTime (.ok d) s) := rfl

/-- On `FAIL` the two reads end alike. -/
theorem complete_readTime_fail (s : State) : complete .readTime .fail s = complete .readRaw .fail s := rfl

/-- An answered `RDTIME` ends as if `RDREG` had submitted for it. -/
theorem busTransaction_readTime_run {s : State} {n : Nat} {a : Answer} (sub : Submission) (h : answersAfter s n a) :
    Host.Core.run core n (busTransaction .readTime sub s) =
      .next (complete .readTime a ((submit .readRaw sub s).setTransport (s.transport.drop (n + 1)))) := by
  rw [busTransaction_run .readTime sub h, submit_readTime, setTransport_setPhase, complete_setPhase]

/-! ### `WRTIME` as `ENC` and then `WRREG` (R96) -/

theorem setTransport_setStatus (s : State) (c : StatusCode) (l : List Move) :
    (s.setStatus c).setTransport l = (s.setTransport l).setStatus c := rfl

/-- What the transport will answer does not depend on `R`. -/
theorem answersAfter_setR {s : State} {n : Nat} {a : Answer} (v : Image) (h : answersAfter s n a) :
    answersAfter (s.setR v) n a := h

/-- The end of an operation sets `STATUS`, whatever it was. -/
@[simp] theorem complete_setStatus (todo : Pending) (a : Answer) (s : State) (c : StatusCode) :
    complete todo a (s.setStatus c) = complete todo a s := by
  cases a <;> cases todo <;> rfl

/-- A submission leaves the `STATUS` it finds. -/
theorem submit_setStatus (todo : Pending) (sub : Submission) (s : State) (c : StatusCode) :
    submit todo sub (s.setStatus c) = (submit todo sub s).setStatus c := by
  cases todo <;> rfl

/-- The `STATUS` before an answered transaction leaves no trace after it. -/
theorem busTransaction_run_setStatus {s : State} {n : Nat} {a : Answer} (todo : Pending) (sub : Submission)
    (c : StatusCode) (h : answersAfter s n a) :
    Host.Core.run core n (busTransaction todo sub (s.setStatus c)) =
      Host.Core.run core n (busTransaction todo sub s) := by
  rw [busTransaction_run todo sub h, busTransaction_run (s := s.setStatus c) todo sub h, submit_setStatus,
    setTransport_setStatus, complete_setStatus, setStatus_transport]

/-! ### The registers that ids name (R13) -/

@[simp] theorem regOf_t (f : Field) : regOf (fieldIndex f) = some (.t f) := by
  cases f <;> rfl

@[simp] theorem regOf_r (f : Field) : regOf (0x08 + fieldIndex f) = some (.r f) := by
  cases f <;> rfl

@[simp] theorem regOf_status : regOf 0x10 = some .status := rfl

/-! ### A host read at the open port (R99) -/

theorem step_hrd {s : State} {id : Nat} {reg : RegId} {rest : List Action} (hp : s.phase = .idle)
    (hi : s.inbox = .hrd id :: rest) (hreg : regOf id = some reg) :
    step s = .next ((s.setInbox rest).answerHost reg (readReg s reg)) := by
  rw [step_idle hp hi, performAction, hostRead, hreg]
  cases reg <;> rfl

theorem step_hrd_noRegister {s : State} {id : Nat} {rest : List Action} (hp : s.phase = .idle)
    (hi : s.inbox = .hrd id :: rest) (hreg : regOf id = none) : step s = .refused (.noSuchRegister id) := by
  rw [step_idle hp hi, performAction, hostRead, hreg]

/-- `STATUS` reads as six zeros above `CODE` (R17). -/
theorem statusRead_eq (status : Byte) : statusRead status = 0#6 ++ status.extractLsb' 0 2 := by
  apply BitVec.eq_of_toNat_eq
  rw [statusRead, BitVec.toNat_and, BitVec.toNat_append, slice_toNat]
  simpa using Nat.and_two_pow_sub_one_eq_mod status.toNat 2

/-- After reset every register of both files reads as its free value (R26). -/
theorem readReg_reset (f : Field) :
    readReg State.reset (.t f) = .word (Config.tInit f) ∧ readReg State.reset (.r f) = .byte (Config.rInit f) := by
  cases f <;> exact ⟨rfl, rfl⟩

/-! ### A host write at the open port (R100) -/

theorem step_hwr_t {s : State} {id : Nat} {f : Field} {x : Word} {rest : List Action} (hp : s.phase = .idle)
    (hi : s.inbox = .hwr id (.word x) :: rest) (hreg : regOf id = some (.t f)) :
    step s = .next (writeT (s.setInbox rest) f x) := by
  simp only [step_idle hp hi, performAction, hostWrite, hreg]

theorem step_hwr_r {s : State} {id : Nat} {f : Field} {b : Byte} {rest : List Action} (hp : s.phase = .idle)
    (hi : s.inbox = .hwr id (.byte b) :: rest) (hreg : regOf id = some (.r f)) :
    step s = .next (writeR (s.setInbox rest) f b) := by
  simp only [step_idle hp hi, performAction, hostWrite, hreg]

theorem step_hwr_status {s : State} {id : Nat} {v : RegValue} {rest : List Action} (hp : s.phase = .idle)
    (hi : s.inbox = .hwr id v :: rest) (hreg : regOf id = some .status) : step s = .refused .statusNotWritable := by
  simp only [step_idle hp hi, performAction, hostWrite, hreg]

/-! ### The closed port (R22) -/

/-- The transport's turn touches neither the actions to come nor what the host has been answered. -/
theorem transportTurn_hostPort (s : State) :
    (transportTurn s).inbox = s.inbox ∧ (transportTurn s).returned = s.returned := by
  rcases transportTurn_cases s with ⟨h, -⟩ | ⟨m, rest, -, -, -, h⟩ | ⟨todo, sub, a, rest, -, -, h⟩ <;>
    rw [h] <;> simp

/-- In `WAIT` no action but the reset event is taken: it stays first in line and the host is answered nothing. -/
theorem step_closedPort {s : State} {a : Action} {rest : List Action} {todo : Pending} {sub : Submission}
    (hp : s.phase = .wait todo sub) (hi : s.inbox = a :: rest) (ha : a ≠ .reset) :
    ∃ t, step s = .next t ∧ t.inbox = s.inbox ∧ t.returned = s.returned :=
  ⟨_, step_wait hp (by simpa [noResetNext, hi] using ha), transportTurn_hostPort s⟩

end Sys2Proof.Machine

/-! ### The statements -/

namespace Sys2Proof

open Machine

/-- Settles O24: an answered read whose completion also decodes; `RDREG`'s ends in the same state but for that. -/
theorem rdtimeReadsTheCalendarTime : Obligations.RdtimeReadsTheCalendarTime := by
  refine ⟨Laws.RoundTrip.rdtime rfl, fun s n d h => ?ok, fun s n h => ?fail, fun s n a h => ?asTwo⟩
  case asTwo =>
    refine ⟨_, _, _, _, rfl, busTransaction_run .readRaw readSubmission h, rfl,
      busTransaction_readTime_run readSubmission h, ?_⟩
    rw [complete_status]
    cases a with
    | ok d => exact ⟨fun _ => execDec_complete_readRaw_ok d _, fun h => absurd rfl h⟩
    | fail => exact ⟨fun h => absurd h (by decide), fun _ => complete_readTime_fail _⟩
  all_goals
    obtain ⟨t, ran, phase, status, history, r, tt⟩ := busTransaction_ends .readTime readSubmission h
    exact ⟨_, t, rfl, ran, r, tt, status, phase, history⟩

/-- Settles O25: an answered write from the state in which `R` is encoded; the `STATUS` that `ENC` leaves is lost. -/
theorem wrtimeSendsTheEncodedTime : Obligations.WrtimeSendsTheEncodedTime := by
  refine ⟨Laws.RoundTrip.wrtime rfl, fun s n a h => ?_, fun s n a h => ?_⟩
  · obtain ⟨t, ran, phase, status, history, r, tt⟩ :=
      busTransaction_ends .write (writeSubmission Config.wrMode (encodeTime s.t)) (answersAfter_setR _ h)
    obtain ⟨keepsR, keepsT⟩ := complete_write_registers a (s.setR (encodeTime s.t))
    rw [completion_write] at history
    exact ⟨_, t, rfl, ran, r.trans keepsR, tt.trans keepsT, phase, status.trans (endCode_byte a), history⟩
  · have encoded : answersAfter (s.setR (encodeTime s.t)) n a := answersAfter_setR _ h
    have ran := busTransaction_run .write (writeSubmission Config.wrMode (encodeTime s.t)) encoded
    exact ⟨_, _, _, _, rfl, rfl, (busTransaction_run_setStatus _ _ .ok encoded).trans ran, rfl, ran⟩

/-- Settles O33: at once or after a wait, the failing turn writes `STATUS` and `PHASE` alone. -/
theorem noPartialResultOnFailure : Obligations.NoPartialResultOnFailure := by
  refine ⟨fun s h => ?_, fun s todo sub hp hr h => ?_⟩
  · obtain ⟨status, -, t, r, -⟩ := busTransaction_fail .readTime readSubmission h
    obtain ⟨status', -, t', -, -⟩ := busTransaction_fail (s := s.setR (encodeTime s.t)) .write
      (writeSubmission Config.wrMode (encodeTime s.t)) h
    exact ⟨_, _, rfl, t, r, status, rfl, t', status'⟩
  · obtain ⟨status, phase, t, r⟩ := transportTurn_fail hp h
    exact ⟨_, step_wait hp hr, t, r, status, phase⟩

/-- Settles O37: the read step by the register that the id names, and the closed port. -/
theorem hostReadReturnsTheRegister : Obligations.HostReadReturnsTheRegister := by
  refine ⟨fun s f rest hp hi => step_hrd hp hi (regOf_t f), fun s f rest hp hi => step_hrd hp hi (regOf_r f),
    fun s rest hp hi => ?_, readReg_reset, fun s id rest hp hi hreg => step_hrd_noRegister hp hi hreg,
    fun s id rest todo sub hp hi => step_closedPort hp hi (by simp)⟩
  rw [step_hrd hp hi regOf_status, readReg, statusRead_eq]
  rfl

/-- Settles O38: the write step by the register that the id names, and the closed port. -/
theorem hostWriteWritesOneRegister : Obligations.HostWriteWritesOneRegister := by
  refine ⟨fun s f x rest hp hi => ?_, fun s f b rest hp hi => ?_,
    fun s v rest hp hi => step_hwr_status hp hi regOf_status, fun s id v rest todo sub hp hi => ?_⟩
  · exact ⟨s.t.set f x, step_hwr_t hp hi (regOf_t f), Fields.get_set_same _ f x, fun _ => Fields.get_set_other _ x⟩
  · exact ⟨s.r.set f b, step_hwr_r hp hi (regOf_r f), Fields.get_set_same _ f b, fun _ => Fields.get_set_other _ b⟩
  · obtain ⟨t, stepped, inbox, -⟩ := step_closedPort hp hi (by simp)
    exact ⟨t, stepped, inbox⟩

end Sys2Proof
end

section
/-! The command word (30_encoding.md section 2): a word names a command exactly when it is that command's encoding,
and what the host's placement of a word makes the next step do. -/

namespace Sys2Proof

open Machine

/-! ### The word of each command (R49, R50) -/

theorem decodeWord_ok_iff (w : Byte) (i : Instr) : decodeWord w = .ok i ↔ w = encodeWord i := by
  refine ⟨fun h => ?_, fun h => ?_⟩
  · by_cases hz : zeroField w = 0#5
    · rw [decodeWord_of_zeroField hz] at h
      rw [word_of_fields w, hz, decodeOp_ok h, encodeWord]
    · rw [decodeWord_of_zeroField_ne hz] at h
      cases h
  · subst h
    cases i <;> rfl

/-- The table's number of a word presents that word. -/
theorem tableWord_toNat (w : Byte) : tableWord 8 w.toNat = some w := by
  have fits : w.toNat % 2 ^ 8 = w.toNat := Nat.mod_eq_of_lt w.isLt
  rw [tableWord, fits, if_pos w.isLt, BitVec.ofNat_toNat, BitVec.setWidth_eq]

theorem decodeTableWord_encodeWord (i : Instr) : decodeTableWord 8 (encodeWord i).toNat = some i := by
  simp only [decodeTableWord, tableWord_toNat, (decodeWord_ok_iff _ i).2 rfl]

/-! ### A step that takes a legal word (R101) -/

namespace Machine

theorem withFetchWord_toNat (s : State) (w : Byte) :
    s.withFetchWord 8 w.toNat = { s with inbox := .hcmd w :: s.inbox, phase := .idle } := by
  rw [State.withFetchWord, tableWord_toNat]

theorem step_legalCommand {s : State} {w : Byte} {i : Instr} {rest : List Action} (hp : s.phase = .idle)
    (hi : s.inbox = .hcmd w :: rest) (hd : decodeWord w = .ok i) : step s = exec i (s.setInbox rest) := by
  rw [step_idle hp hi, performAction, hostCommand, hd]

/-- No command stops: each arm of `exec` answers a next state. -/
theorem exec_next (i : Instr) (s : State) : ∃ t, exec i s = .next t := by
  cases i <;> exact ⟨_, rfl⟩

end Machine

/-! ### The statements -/

/-- Settles O2: a word is its two fields, and the table's number of a word is that word. -/
theorem decodeInvertsEncode : Obligations.DecodeInvertsEncode :=
  ⟨decodeWord_ok_iff, fun i _ => decodeTableWord_encodeWord i⟩

/-- Settles O3: a legal word at the open port, one that the host places there, and one at the closed port. -/
theorem stepRunsTheDecodedCommand : Obligations.StepRunsTheDecodedCommand := by
  refine ⟨fun s w i rest hp hi hd => step_legalCommand hp hi hd, fun s i => ?_, fun s w rest todo sub hp hi => ?_⟩
  · rw [withFetchWord_toNat]
    exact step_legalCommand rfl rfl ((decodeWord_ok_iff _ i).2 rfl)
  · have noReset : noResetNext s := by simp [noResetNext, hi]
    exact ⟨_, step_wait hp noReset, (transportTurn_hostPort s).1, transportTurn_submissions s⟩

/-- Settles O5: by the six arms of `exec`. -/
theorem everyCommandHasANextState : Obligations.EveryCommandHasANextState := exec_next

end Sys2Proof
end

section
/-! The codec's round trips (40_codec.md sections 1, 2, 4 and 5): the byte functions undone by one another, the
decoded fields in plain integers, each field through the image and back, and each byte through the time and back. -/

namespace Sys2Proof.Machine

/-! ### The byte functions undone by one another (R60, R74) -/

theorem bcdDecode_le (b : Byte) : bcdDecode b ≤ 165 := by
  have := b.isLt
  rw [bcdDecode_eq]
  omega

theorem bcdDecode_le_of_wellFormed {b : Byte} (h : bcdWellFormed b = true) : bcdDecode b ≤ 99 := by
  rw [bcdWellFormed_iff] at h
  rw [bcdDecode_eq]
  omega

/-- Up to 159 the tens digit fits its nibble. -/
theorem bcdDecode_bcdEncode {v : Nat} (h : v ≤ 159) : bcdDecode (bcdEncode v) = v := by
  rw [bcdDecode_eq, bcdEncode_toNat, truncatedBcd]
  omega

/-- The other way round the units digit alone must be decimal: a tens digit of any value is kept. -/
theorem bcdEncode_bcdDecode {b : Byte} (h : b.toNat % 16 ≤ 9) : bcdEncode (bcdDecode b) = b := by
  have := b.isLt
  apply BitVec.eq_of_toNat_eq
  rw [bcdEncode_toNat, bcdDecode_eq, truncatedBcd]
  omega

theorem bcdDecode_eq_zero_iff (b : Byte) : bcdDecode b = 0 ↔ b = 0#8 := by
  rw [bcdDecode_eq, ← BitVec.toNat_inj, BitVec.toNat_ofNat]
  omega

/-- Six more units on a malformed units digit are ten units less and one ten more. -/
theorem bcdDecode_add_six {b : Byte} (units : 0xA ≤ (b.extractLsb' 0 4).toNat)
    (tens : (b.extractLsb' 4 4).toNat ≤ 0xE) : bcdDecode (b + 6#8) = bcdDecode b := by
  rw [slice_toNat] at units tens
  have := b.isLt
  rw [bcdDecode_eq, bcdDecode_eq, BitVec.toNat_add, BitVec.toNat_ofNat]
  omega

/-! ### The decoded fields in plain integers (R63, R64, R71) -/

/-- One range for every field: every `bcd_decode` is at most 165 and the offsets are -1, 0 and 100. -/
theorem decodeImage_get_range (raw : Image) (f : Field) :
    -1 ≤ (decodeImage raw).get f ∧ (decodeImage raw).get f ≤ 265 := by
  have := bcdDecode_le (raw.sec &&& 0x7F#8)
  have := bcdDecode_le (raw.min &&& 0x7F#8)
  have := bcdDecode_le (raw.hour &&& 0x3F#8)
  have := bcdDecode_le (raw.wday &&& 0x07#8)
  have := bcdDecode_le (raw.mday &&& 0x3F#8)
  have := bcdDecode_le (raw.mon &&& 0x1F#8)
  have := bcdDecode_le raw.year
  cases f <;> simp only [Fields.get, decodeImage] <;> omega

theorem decodeToT_get_toInt (raw : Image) (f : Field) : ((decodeToT raw).get f).toInt = (decodeImage raw).get f := by
  obtain ⟨lo, hi⟩ := decodeImage_get_range raw f
  rw [decodeToT, Fields.get_map, toWord_toInt (by omega) (by omega)]

theorem ofInt_ten_toInt {v : Int} (lo : -512 ≤ v) (hi : v < 512) : (BitVec.ofInt 10 v).toInt = v := by
  rw [BitVec.toInt_ofInt]
  apply Int.bmod_eq_of_le <;> omega

/-- `decode` field by field, each masked byte by quotient and remainder. -/
theorem decodeImage_eq (raw : Image) :
    (decodeImage raw).sec = 10 * (raw.sec.toNat % 128 / 16 : Int) + raw.sec.toNat % 16 ∧
    (decodeImage raw).min = 10 * (raw.min.toNat % 128 / 16 : Int) + raw.min.toNat % 16 ∧
    (decodeImage raw).hour = 10 * (raw.hour.toNat % 64 / 16 : Int) + raw.hour.toNat % 16 ∧
    (decodeImage raw).wday = (raw.wday.toNat % 8 : Int) - 1 ∧
    (decodeImage raw).mday = 10 * (raw.mday.toNat % 64 / 16 : Int) + raw.mday.toNat % 16 ∧
    (decodeImage raw).mon = 10 * (raw.mon.toNat % 32 / 16 : Int) + raw.mon.toNat % 16 - 1 ∧
    (decodeImage raw).year = 10 * (raw.year.toNat / 16 : Int) + raw.year.toNat % 16 + 100 := by
  have stored := decodeToT_get_toInt raw
  obtain ⟨sec, min, hour, wday, mday, mon, year⟩ := decodeToT_toInt raw
  exact ⟨(stored .sec).symm.trans sec, (stored .min).symm.trans min, (stored .hour).symm.trans hour,
    (stored .wday).symm.trans wday, (stored .mday).symm.trans mday, (stored .mon).symm.trans mon,
    (stored .year).symm.trans year⟩

/-- A byte that decodes to `v` with the tens digit at most `top`: past `10 * top + 9` the units digit is malformed. -/
def byteUnder (top v : Nat) : Byte := BitVec.ofNat 8 (16 * min (v / 10) top + (v - 10 * min (v / 10) top))

theorem byteUnder_toNat {top v : Nat} (htop : top ≤ 15) (h : v ≤ 10 * top + 15) :
    (byteUnder top v).toNat = 16 * min (v / 10) top + (v - 10 * min (v / 10) top) := by
  rw [byteUnder, BitVec.toNat_ofNat]
  omega

theorem exists_decodeImage_sec_min {v : Nat} (h : v ≤ 85) :
    ∃ raw : Image, (decodeImage raw).sec = v ∧ (decodeImage raw).min = v := by
  refine ⟨{ exampleImage with sec := byteUnder 7 v, min := byteUnder 7 v }, ?_⟩
  obtain ⟨sec, min, -⟩ := decodeImage_eq { exampleImage with sec := byteUnder 7 v, min := byteUnder 7 v }
  simp only [byteUnder_toNat (top := 7) (v := v) (by omega) (by omega)] at sec min
  rw [sec, min]
  omega

theorem exists_decodeImage_hour {v : Nat} (h : v ≤ 45) : ∃ raw : Image, (decodeImage raw).hour = v := by
  refine ⟨{ exampleImage with hour := byteUnder 3 v }, ?_⟩
  obtain ⟨-, -, hour, -⟩ := decodeImage_eq { exampleImage with hour := byteUnder 3 v }
  simp only [byteUnder_toNat (top := 3) (v := v) (by omega) (by omega)] at hour
  rw [hour]
  omega

/-- A weekday byte gives -1 exactly with an empty payload (R64). -/
theorem decodeImage_wday_eq_neg_one_iff (raw : Image) :
    (decodeImage raw).wday = -1 ↔ raw.wday &&& 0x07#8 = 0#8 := by
  rw [← bcdDecode_eq_zero_iff]
  change (bcdDecode _ : Int) - 1 = -1 ↔ _
  omega

/-- A month byte gives -1 exactly with an empty payload (R64). -/
theorem decodeImage_mon_eq_neg_one_iff (raw : Image) :
    (decodeImage raw).mon = -1 ↔ raw.mon &&& 0x1F#8 = 0#8 := by
  rw [← bcdDecode_eq_zero_iff]
  change (bcdDecode _ : Int) - 1 = -1 ↔ _
  omega

/-! ### A time through the image and back (R73) -/

theorem toInt_eq_toNat_or (w : Word) :
    (w.toNat < 2147483648 ∧ w.toInt = w.toNat) ∨
      (2147483648 ≤ w.toNat ∧ w.toNat < 4294967296 ∧ w.toInt = w.toNat - 4294967296) := by
  have := w.isLt
  rw [BitVec.toInt_eq_toNat_cond]
  split <;> omega

/-- Each field comes back exactly from the numbers whose tens digit its mask lets through. -/
theorem decodeToT_encodeTime_iff (t : Fields Word) :
    ((decodeToT (encodeTime t)).sec = t.sec ↔ 0 ≤ t.sec.toInt ∧ t.sec.toInt ≤ 79) ∧
    ((decodeToT (encodeTime t)).min = t.min ↔ 0 ≤ t.min.toInt ∧ t.min.toInt ≤ 79) ∧
    ((decodeToT (encodeTime t)).hour = t.hour ↔ 0 ≤ t.hour.toInt ∧ t.hour.toInt ≤ 39) ∧
    ((decodeToT (encodeTime t)).wday = t.wday ↔ -1 ≤ t.wday.toInt ∧ t.wday.toInt ≤ 6) ∧
    ((decodeToT (encodeTime t)).mday = t.mday ↔ 0 ≤ t.mday.toInt ∧ t.mday.toInt ≤ 39) ∧
    ((decodeToT (encodeTime t)).mon = t.mon ↔ -1 ≤ t.mon.toInt ∧ t.mon.toInt ≤ 18) ∧
    ((decodeToT (encodeTime t)).year = t.year ↔ 100 ≤ t.year.toInt ∧ t.year.toInt ≤ 259) := by
  obtain ⟨dsec, dmin, dhour, dwday, dmday, dmon, dyear⟩ := decodeToT_toInt (encodeTime t)
  obtain ⟨esec, emin, ehour, ewday, emday, emon, eyear⟩ := encodeTime_toNat t
  simp only [← BitVec.toInt_inj, dsec, dmin, dhour, dwday, dmday, dmon, dyear, esec, emin, ehour, ewday, emday, emon,
    eyear, truncatedBcd]
  refine ⟨?sec, ?min, ?hour, ?wday, ?mday, ?mon, ?year⟩
  case sec => have := toInt_eq_toNat_or t.sec; omega
  case min => have := toInt_eq_toNat_or t.min; omega
  case hour => have := toInt_eq_toNat_or t.hour; omega
  case wday => have := toInt_eq_toNat_or t.wday; omega
  case mday => have := toInt_eq_toNat_or t.mday; omega
  case mon => have := toInt_eq_toNat_or t.mon; omega
  case year => have := toInt_eq_toNat_or t.year; omega

/-- The contract lies inside each field's round-trip set. -/
theorem decodeToT_encodeTime {t : Fields Word} (h : inContract t) : decodeToT (encodeTime t) = t := by
  obtain ⟨sec, min, hour, wday, mday, mon, year⟩ := h
  obtain ⟨rsec, rmin, rhour, rwday, rmday, rmon, ryear⟩ := decodeToT_encodeTime_iff t
  apply Fields.ext_get
  intro f
  cases f
  case sec => exact rsec.2 (by omega)
  case min => exact rmin.2 (by omega)
  case hour => exact rhour.2 (by omega)
  case wday => exact rwday.2 (by omega)
  case mday => exact rmday.2 (by omega)
  case mon => exact rmon.2 (by omega)
  case year => exact ryear.2 (by omega)

/-! ### An image through the time and back (R77) -/

/-- The number of payloads that a position's mask lets through (R45). -/
def payloadCount : Field → Nat
  | .sec => 128
  | .min => 128
  | .hour => 64
  | .wday => 8
  | .mday => 64
  | .mon => 32
  | .year => 256

theorem and_payloadMask_toNat (b : Byte) (f : Field) :
    (b &&& payloadMask.get f).toNat = b.toNat % payloadCount f := by
  cases f
  case sec => exact and_0x7F_toNat b
  case min => exact and_0x7F_toNat b
  case hour => exact and_0x3F_toNat b
  case wday => exact and_0x07_toNat b
  case mday => exact and_0x3F_toNat b
  case mon => exact and_0x1F_toNat b
  case year => exact (congrArg BitVec.toNat (and_0xFF b)).trans (Nat.mod_eq_of_lt b.isLt).symm

theorem and_payloadMask_eq_iff (b : Byte) (f : Field) :
    b &&& payloadMask.get f = b ↔ b.toNat < payloadCount f := by
  rw [← BitVec.toNat_inj, and_payloadMask_toNat]
  cases f <;> exact Nat.mod_eq_iff_lt (by decide)

/-- A byte that `encode(decode(raw))` keeps at a position, by its number. -/
theorem canonicalByte_iff (b : Byte) (f : Field) :
    (b &&& payloadMask.get f = b ∧ (b.extractLsb' 0 4).toNat ≤ 9) ↔ b.toNat < payloadCount f ∧ b.toNat % 16 ≤ 9 := by
  rw [and_payloadMask_eq_iff, slice_toNat]
  simp

theorem toWord_natCast_toNat {n : Nat} (h : n < 4294967296) : (toWord n).toNat = n := by
  rw [toWord, BitVec.ofInt_natCast, BitVec.toNat_ofNat, Nat.mod_eq_of_lt h]

theorem toWord_sub_one_add_one (v : Int) : toWord (v - 1) + 1#32 = toWord v := by
  rw [show (1#32 : Word) = toWord 1 from rfl, toWord, toWord, toWord, ← BitVec.ofInt_add, Int.sub_add_cancel]

theorem toWord_add_hundred_sub_hundred (v : Int) : toWord (v + 100) - 100#32 = toWord v := by
  rw [toWord, BitVec.ofInt_add, toWord]
  exact BitVec.add_sub_cancel ..

/-- The offsets cancel: each byte is decoded through its mask and encoded again. -/
theorem encodeTime_decodeToT_get (raw : Image) (f : Field) :
    (encodeTime (decodeToT raw)).get f = bcdEncode (bcdDecode (raw.get f &&& payloadMask.get f)) := by
  have fits (b : Byte) : (toWord (bcdDecode b)).toNat = bcdDecode b :=
    toWord_natCast_toNat (Nat.lt_of_le_of_lt (bcdDecode_le b) (by decide))
  cases f <;> simp only [Fields.get, encodeTime, decodeToT, decodeImage, Fields.map, payloadMask,
    toWord_sub_one_add_one, toWord_add_hundred_sub_hundred, and_0xFF, fits]

/-- Each field of an image comes back exactly from the canonical bytes of its position. -/
theorem encodeTime_decodeToT_get_iff (raw : Image) (f : Field) :
    (encodeTime (decodeToT raw)).get f = raw.get f ↔
      raw.get f &&& payloadMask.get f = raw.get f ∧ ((raw.get f).extractLsb' 0 4).toNat ≤ 9 := by
  rw [encodeTime_decodeToT_get]
  refine ⟨fun back => ?_, fun ⟨inside, units⟩ => ?_⟩
  · have units : ((raw.get f).extractLsb' 0 4).toNat ≤ 9 := by
      rw [← back, bcdEncode_lowNibble]
      omega
    have payloadUnits : (raw.get f &&& payloadMask.get f).toNat % 16 ≤ 9 := by
      rw [slice_toNat] at units
      rw [and_payloadMask_toNat]
      cases f <;> simp only [payloadCount] <;> omega
    exact ⟨(bcdEncode_bcdDecode payloadUnits).symm.trans back, units⟩
  · rw [inside]
    exact bcdEncode_bcdDecode (by simpa [slice_toNat] using units)

/-- `encode` undoes `decode` on the canonical images alone (R77 (c)). -/
theorem encodeTime_decodeToT_iff (raw : Image) : encodeTime (decodeToT raw) = raw ↔ canonicalImage raw := by
  refine ⟨fun h f => (encodeTime_decodeToT_get_iff raw f).1 (by rw [h]), fun h => ?_⟩
  exact Fields.ext_get fun f => (encodeTime_decodeToT_get_iff raw f).2 (h f)

/-! ### The number of canonical bytes (R77) -/

/-- A bound below the end of the count is that count's end. -/
theorem count_lt_and {p : Nat → Prop} [DecidablePred p] {m n : Nat} (h : m ≤ n) :
    Nat.count (fun k => k < m ∧ p k) n = Nat.count p m := by
  induction h with
  | refl => exact List.countP_congr fun k hk => by simp [List.mem_range.1 hk]
  | @step n h ih =>
    have outside : ¬ (n < m ∧ p n) := fun hk => Nat.not_lt.2 h hk.1
    rw [Nat.count_succ, ih, if_neg outside, Nat.add_zero]

/-- Every sixteen numbers in a row hold ten with a decimal units digit. -/
theorem count_unitsDigit (k : Nat) : Nat.count (fun n => n % 16 ≤ 9) (16 * k) = 10 * k := by
  induction k with
  | zero => rfl
  | succ k ih =>
    have block : Nat.count (fun n => n % 16 ≤ 9) 16 = 10 := by decide
    rw [Nat.mul_succ, Nat.count_add, ih, Nat.mul_succ]
    simp only [Nat.mul_add_mod, block]

theorem canonicalBytes_count (f : Field) :
    Nat.count (fun n => n % 16 ≤ 9) (payloadCount f) =
      (match f with
        | .sec => 80 | .min => 80 | .hour => 40 | .wday => 8 | .mday => 40 | .mon => 20 | .year => 160) := by
  cases f
  case sec => exact count_unitsDigit 8
  case min => exact count_unitsDigit 8
  case hour => exact count_unitsDigit 4
  case wday => decide
  case mday => exact count_unitsDigit 4
  case mon => exact count_unitsDigit 2
  case year => exact count_unitsDigit 16

theorem payloadCount_le (f : Field) : payloadCount f ≤ 256 := by
  cases f <;> decide

theorem canonicalBytes_length (f : Field) :
    ((List.range 256).filter fun n =>
      BitVec.ofNat 8 n &&& payloadMask.get f = BitVec.ofNat 8 n ∧
        ((BitVec.ofNat 8 n).extractLsb' 0 4 : BitVec 4).toNat ≤ 9).length =
      Nat.count (fun n => n % 16 ≤ 9) (payloadCount f) := by
  have byNumber : ∀ n ∈ List.range 256,
      decide (BitVec.ofNat 8 n &&& payloadMask.get f = BitVec.ofNat 8 n ∧
        ((BitVec.ofNat 8 n).extractLsb' 0 4 : BitVec 4).toNat ≤ 9) =
      decide (n < payloadCount f ∧ n % 16 ≤ 9) := by
    intro n hn
    rw [decide_eq_decide, canonicalByte_iff, BitVec.toNat_ofNat, Nat.mod_eq_of_lt (List.mem_range.1 hn)]
  rw [List.filter_congr byNumber, ← List.countP_eq_length_filter]
  exact count_lt_and (payloadCount_le f)

/-! ### An in-contract image (R47, R77 (a)) -/

/-- The largest number that each field of an in-contract time is encoded from, its offset added (R11, R66). -/
def largestEncoded : Field → Nat
  | .sec => 59
  | .min => 59
  | .hour => 23
  | .wday => 7
  | .mday => 31
  | .mon => 12
  | .year => 99

theorem largestEncoded_le (f : Field) : largestEncoded f ≤ 99 := by
  cases f <;> decide

theorem bcdEncode_largestEncoded_lt (f : Field) : (bcdEncode (largestEncoded f)).toNat < payloadCount f := by
  cases f <;> decide

theorem exists_encodeTime_get_eq {t : Fields Word} (h : inContract t) (f : Field) :
    ∃ u ≤ largestEncoded f, (encodeTime t).get f = bcdEncode u := by
  obtain ⟨sec, min, hour, wday, mday, mon, year⟩ := h
  cases f <;> refine ⟨_, ?_, rfl⟩ <;> rw [largestEncoded]
  case sec => have := toInt_eq_toNat_or t.sec; omega
  case min => have := toInt_eq_toNat_or t.min; omega
  case hour => have := toInt_eq_toNat_or t.hour; omega
  case wday => have := toInt_eq_toNat_or t.wday; rw [BitVec.toNat_add, BitVec.toNat_ofNat]; omega
  case mday => have := toInt_eq_toNat_or t.mday; omega
  case mon => have := toInt_eq_toNat_or t.mon; rw [BitVec.toNat_add, BitVec.toNat_ofNat]; omega
  case year => have := toInt_eq_toNat_or t.year; rw [BitVec.toNat_sub, BitVec.toNat_ofNat]; omega

/-- On numbers of two digits `bcd_encode` is monotone. -/
theorem bcdEncode_le {u m : Nat} (h : u ≤ m) (hm : m ≤ 99) : bcdEncode u ≤ bcdEncode m := by
  rw [BitVec.le_def, bcdEncode_toNat, bcdEncode_toNat, truncatedBcd, truncatedBcd]
  omega

theorem encodeTime_get_le {t : Fields Word} (h : inContract t) (f : Field) :
    (encodeTime t).get f ≤ bcdEncode (largestEncoded f) := by
  obtain ⟨u, hu, byte⟩ := exists_encodeTime_get_eq h f
  rw [byte]
  exact bcdEncode_le hu (largestEncoded_le f)

theorem encodeTime_get_insideMask {t : Fields Word} (h : inContract t) (f : Field) :
    (encodeTime t).get f &&& payloadMask.get f = (encodeTime t).get f :=
  (and_payloadMask_eq_iff _ f).2 (Nat.lt_of_le_of_lt (encodeTime_get_le h f) (bcdEncode_largestEncoded_lt f))

theorem encodeTime_get_wellFormed {t : Fields Word} (h : inContract t) (f : Field) :
    bcdWellFormed ((encodeTime t).get f) = true := by
  obtain ⟨u, hu, byte⟩ := exists_encodeTime_get_eq h f
  rw [byte]
  exact bcdEncode_wellFormed (hu.trans (largestEncoded_le f))

end Sys2Proof.Machine

/-! ### The statements -/

namespace Sys2Proof

open Machine

/-- Settles O6: by quotient and remainder; the one well-formed byte of a number is its encoding. -/
theorem bcdDecodeIsTotal : Obligations.BcdDecodeIsTotal := by
  refine ⟨fun b => ⟨?_, bcdDecode_le b⟩, rfl, rfl, rfl, rfl, fun b => bcdDecode_le_of_wellFormed, fun v hv => ?_,
    fun b => bcdDecode_add_six⟩
  · have := b.isLt
    rw [bcdDecode_eq, slice_toNat, slice_toNat]
    omega
  · refine ⟨bcdEncode v, ⟨bcdEncode_wellFormed hv, bcdDecode_bcdEncode (by omega)⟩, fun c wellFormed hc => ?_⟩
    rw [← hc, bcdEncode_bcdDecode ((bcdWellFormed_iff c).1 wellFormed).2]

/-- Settles O9: each function undoes the other where the digits fit; the two failures are calculated. -/
theorem bcdRoundTrips : Obligations.BcdRoundTrips :=
  ⟨fun _ => bcdDecode_bcdEncode, by decide,
    fun b wellFormed => bcdEncode_bcdDecode ((bcdWellFormed_iff b).1 wellFormed).2, rfl⟩

/-- Settles O14: the ranges by quotient and remainder, and a byte for every second, minute and hour. -/
theorem decodeRanges : Obligations.DecodeRanges := by
  refine ⟨fun raw => ?_, fun _ => exists_decodeImage_sec_min, fun _ => exists_decodeImage_hour,
    decodeImage_wday_eq_neg_one_iff, decodeImage_mon_eq_neg_one_iff⟩
  obtain ⟨sec, min, hour, wday, mday, mon, year⟩ := decodeImage_eq raw
  have := raw.year.isLt
  rw [sec, min, hour, wday, mday, mon, year]
  omega

/-- Settles O15: every decoded field lies between -1 and 265. -/
theorem decodedTimeIsStoredWhole : Obligations.DecodedTimeIsStoredWhole := by
  intro raw f
  obtain ⟨lo, hi⟩ := decodeImage_get_range raw f
  exact ⟨decodeToT_get_toInt raw f, ofInt_ten_toInt (by omega) (by omega)⟩

/-- Settles O17: the round trip of each field in plain arithmetic. -/
theorem roundTripSetsAreExact : Obligations.RoundTripSetsAreExact := decodeToT_encodeTime_iff

/-- Settles O18: the contract lies inside every round-trip set. -/
theorem decAfterEncRestoresTheTime : Obligations.DecAfterEncRestoresTheTime :=
  fun _ h => ⟨_, _, rfl, rfl, decodeToT_encodeTime h, rfl⟩

/-- Settles O19: `ENC` after `DEC` leaves the image encoded from its decoding; the counts by the bytes' numbers. -/
theorem encAfterDecRestoresCanonicalImages : Obligations.EncAfterDecRestoresCanonicalImages :=
  ⟨fun s => ⟨_, _, rfl, rfl, encodeTime_decodeToT_iff s.r⟩,
    fun f => (canonicalBytes_length f).trans (canonicalBytes_count f)⟩

/-- Settles O20: every byte is encoded from a number of two digits, and `bcd_encode` is monotone on those. -/
theorem inContractImageStaysInsideMasks : Obligations.InContractImageStaysInsideMasks := by
  intro t h
  have largest := encodeTime_get_le h
  exact ⟨fun f => ⟨encodeTime_get_insideMask h f, encodeTime_get_wellFormed h f⟩, largest .sec, largest .min,
    largest .hour, largest .wday, largest .mday, largest .mon, largest .year⟩

end Sys2Proof
end

section
/-! What every step keeps (10_state.md sections 2, 4 and 5): the invariant through each shared operation, what the
transport's turn and each command can write, and the statements about every step that rest on them. -/

namespace Sys2Proof.Machine

/-! ### The transport's turn (R80, R88) -/

/-- The transport's turn uses up a move at most, or an answer to the submission in flight completes it. -/
theorem transportTurn_quiet_or_answer (s : State) :
    (∃ l, (s.phase = .idle ∨ ∀ a, ¬ answers s a) ∧ transportTurn s = s.setTransport l) ∨
    (∃ todo sub a rest, s.phase = .wait todo sub ∧ answers s a ∧
      transportTurn s = complete todo a (s.setTransport rest)) := by
  rcases transportTurn_cases s with ⟨turn, quiet⟩ | ⟨m, rest, ht, quiet, -, turn⟩ |
    ⟨todo, sub, a, rest, hp, ht, turn⟩
  · exact .inl ⟨s.transport, quiet.imp_right fun ht a => by simp [answers, ht], turn⟩
  · exact .inl ⟨rest, .inr fun a => by simpa [answers, ht] using quiet a, turn⟩
  · exact .inr ⟨todo, sub, a, rest, hp, answers_iff.2 ⟨rest, ht⟩, turn⟩

/-! ### The invariant through the shared operations (R17, R21, R56, R91) -/

/-- With the port open nothing is in flight, so the invariant speaks of `STATUS` and the history alone. -/
theorem State.Inv.of_idle {s : State} (hp : s.phase = .idle) (status : ∃ c : StatusCode, s.status = c.byte)
    (history : historyFits none s.history) : s.Inv where
  status := status
  inFlight _ _ h := nomatch hp.symm.trans h
  freshBuf _ _ h := nomatch hp.symm.trans h
  openSub _ _ h := nomatch hp.symm.trans h
  history := history

theorem State.Inv.setTransport {s : State} (h : s.Inv) (l : List Move) : (s.setTransport l).Inv :=
  ⟨h.status, h.inFlight, h.freshBuf, h.openSub, h.history⟩

theorem State.Inv.setInbox {s : State} (h : s.Inv) (l : List Action) : (s.setInbox l).Inv :=
  ⟨h.status, h.inFlight, h.freshBuf, h.openSub, h.history⟩

theorem madeByBlock_submissionFor (todo : Pending) (r : Image) : madeByBlock (submissionFor todo r) := by
  cases todo with
  | readRaw => exact .inl rfl
  | readTime => exact .inl rfl
  | write => exact .inr ⟨r, rfl⟩

/-- The completion of an operation carries bytes exactly for its read that ended `OK` (R80). -/
theorem eventFits_completion (todo : Pending) (r : Image) (a : Answer) :
    eventFits (some (submissionFor todo r)) (completion todo a) := by
  have writeIsNoRead := (readSubmission_ne_writeSubmission Config.wrMode r).symm
  cases a <;> cases todo <;> simp [completion, eventFits, submissionFor, Pending.reads, writeIsNoRead]

theorem State.Inv.submit {s : State} (h : s.Inv) (todo : Pending) :
    (submit todo (submissionFor todo s.r) s).Inv where
  status := by simpa using h.status
  inFlight _ _ hp := by
    cases hp
    rw [submit_r]
  freshBuf _ _ hp reads := by
    cases hp
    rw [submit_buf, if_pos reads]
  openSub _ _ hp := by
    cases hp
    rw [submit_history, openIn_append]
    rfl
  history := by
    rw [submit_history, historyFits_append]
    exact ⟨h.history, madeByBlock_submissionFor todo s.r⟩

theorem State.Inv.complete {s : State} {todo : Pending} {sub : Submission} (h : s.Inv) (hp : s.phase = .wait todo sub)
    (a : Answer) : (complete todo a s).Inv := by
  refine .of_idle (complete_phase ..) ⟨endCode a, (complete_status ..).trans (endCode_byte a).symm⟩ ?_
  rw [complete_history, historyFits_append]
  change _ ∧ eventFits (openIn s.history) _
  rw [h.openSub todo sub hp, h.inFlight todo sub hp]
  exact ⟨h.history, eventFits_completion todo s.r a⟩

theorem State.Inv.transportTurn {s : State} (h : s.Inv) : (transportTurn s).Inv := by
  rcases transportTurn_quiet_or_answer s with ⟨l, -, turn⟩ | ⟨todo, sub, a, rest, hp, -, turn⟩ <;> rw [turn]
  · exact h.setTransport l
  · exact (h.setTransport rest).complete hp a

/-- A bus transaction is a submission and then the transport's turn. -/
theorem State.Inv.busTransaction {s : State} (h : s.Inv) (todo : Pending) :
    (busTransaction todo (submissionFor todo s.r) s).Inv :=
  (h.submit todo).transportTurn

/-- A command that the open port takes keeps the invariant; `WRTIME` submits from the `R` it has just written. -/
theorem State.Inv.exec {s t : State} {i : Instr} (h : s.Inv) (hp : s.phase = .idle) (run : exec i s = .next t) :
    t.Inv := by
  cases i <;> cases run
  case dec => exact .of_idle hp ⟨.ok, rfl⟩ h.history
  case enc => exact .of_idle hp ⟨.ok, rfl⟩ h.history
  case rdreg => exact h.busTransaction .readRaw
  case rdtime => exact h.busTransaction .readTime
  case wrreg => exact h.busTransaction .write
  case wrtime =>
    have encoded : (s.setR (encodeTime s.t)).Inv := .of_idle hp h.status h.history
    exact encoded.busTransaction .write

/-- Only a reset is taken while the block waits (R22, R121). -/
theorem idle_of_accepted {s : State} {a : Action} {rest : List Action} (h : acceptedAction s = some (a, rest))
    (ha : a ≠ .reset) : s.phase = .idle :=
  (acceptedAction_some h).2.resolve_right ha

/-! ### What the transport's turn writes (R14, R90) -/

theorem transportTurn_t_changed {s : State} (h : (transportTurn s).t ≠ s.t) :
    ∃ sub d, s.phase = .wait .readTime sub ∧ answers s (.ok d) := by
  rcases transportTurn_quiet_or_answer s with ⟨l, -, turn⟩ | ⟨todo, sub, a, rest, hp, answered, turn⟩ <;>
    rw [turn] at h
  · exact absurd rfl h
  · rw [complete_t] at h
    cases a with
    | fail => exact absurd rfl h
    | ok d =>
      have reads : todo = .readTime := by_contra fun other => h (if_neg other)
      exact ⟨sub, d, reads ▸ hp, answered⟩

theorem transportTurn_r_changed {s : State} (h : (transportTurn s).r ≠ s.r) :
    ∃ todo sub d, s.phase = .wait todo sub ∧ todo.reads = true ∧ answers s (.ok d) := by
  rcases transportTurn_quiet_or_answer s with ⟨l, -, turn⟩ | ⟨todo, sub, a, rest, hp, answered, turn⟩ <;>
    rw [turn] at h
  · exact absurd rfl h
  · rw [complete_r] at h
    cases a with
    | fail => exact absurd rfl h
    | ok d =>
      have reads : todo.reads = true := by_contra fun other => h (if_neg other)
      exact ⟨todo, sub, d, hp, reads, answered⟩

theorem transportTurn_status_changed {s : State} (h : (transportTurn s).status ≠ s.status) :
    ∃ todo sub a, s.phase = .wait todo sub ∧ answers s a := by
  rcases transportTurn_quiet_or_answer s with ⟨l, -, turn⟩ | ⟨todo, sub, a, rest, hp, answered, -⟩
  · exact absurd (by rw [turn, setTransport_status]) h
  · exact ⟨todo, sub, a, hp, answered⟩

/-! ### What each command writes (R14) -/

@[simp] theorem answers_submit (todo : Pending) (sub : Submission) (s : State) (a : Answer) :
    answers (submit todo sub s) a ↔ answers s a := by
  rw [answers, submit_transport, answers]

theorem busTransaction_t_changed {s : State} {todo : Pending} {sub : Submission}
    (h : (busTransaction todo sub s).t ≠ s.t) : todo = .readTime ∧ ∃ d, answers s (.ok d) := by
  rw [← submit_t todo sub s] at h
  obtain ⟨sub', d, hp, answered⟩ := transportTurn_t_changed h
  cases hp
  exact ⟨rfl, d, (answers_submit ..).1 answered⟩

theorem busTransaction_r_changed {s : State} {todo : Pending} {sub : Submission}
    (h : (busTransaction todo sub s).r ≠ s.r) : todo.reads = true ∧ ∃ d, answers s (.ok d) := by
  rw [← submit_r todo sub s] at h
  obtain ⟨todo', sub', d, hp, reads, answered⟩ := transportTurn_r_changed h
  cases hp
  exact ⟨reads, d, (answers_submit ..).1 answered⟩

theorem exec_t_changed {s t : State} {i : Instr} (run : exec i s = .next t) (h : t.t ≠ s.t) :
    i = .dec ∨ i = .rdtime ∧ ∃ d, answers s (.ok d) := by
  cases i <;> cases run
  case dec => exact .inl rfl
  case enc => exact absurd rfl h
  case rdtime => exact .inr ⟨rfl, (busTransaction_t_changed h).2⟩
  case rdreg => cases (busTransaction_t_changed h).1
  case wrreg => cases (busTransaction_t_changed h).1
  case wrtime => cases (busTransaction_t_changed (s := s.setR (encodeTime s.t)) h).1

theorem exec_r_changed {s t : State} {i : Instr} (run : exec i s = .next t) (h : t.r ≠ s.r) :
    i = .enc ∨ i = .wrtime ∨ (i = .rdreg ∨ i = .rdtime) ∧ ∃ d, answers s (.ok d) := by
  cases i <;> cases run
  case dec => exact absurd rfl h
  case enc => exact .inl rfl
  case wrtime => exact .inr (.inl rfl)
  case rdreg => exact .inr (.inr ⟨.inl rfl, (busTransaction_r_changed h).2⟩)
  case rdtime => exact .inr (.inr ⟨.inr rfl, (busTransaction_r_changed h).2⟩)
  case wrreg => cases (busTransaction_r_changed h).1

end Sys2Proof.Machine

/-! ### The statements -/

namespace Sys2Proof

open Machine

/-- Settles O46: the transport's turn and every command keep the invariant; any other step leaves the port open. -/
theorem stepKeepsTheInvariant : Obligations.StepKeepsTheInvariant := by
  intro s t h hstep
  rcases step_cases hstep with ⟨-, rfl⟩ | ⟨rest, -, rfl⟩ | ⟨id, reg, rest, ha, -, rfl⟩ | ⟨id, f, x, rest, ha, -, rfl⟩ |
    ⟨id, f, b, rest, ha, -, rfl⟩ | ⟨w, i, rest, ha, -, run⟩ | ⟨w, e, rest, -, -, rfl⟩
  · exact h.transportTurn
  · exact .of_idle rfl ⟨.ok, rfl⟩ h.history
  · exact .of_idle (idle_of_accepted ha (by simp) :) h.status h.history
  · exact .of_idle (idle_of_accepted ha (by simp) :) h.status h.history
  · exact .of_idle (idle_of_accepted ha (by simp) :) h.status h.history
  · exact (h.setInbox rest).exec (idle_of_accepted ha (by simp) :) run
  · exact .of_idle rfl ⟨.illegalCmd, rfl⟩ h.history

/-- Settles O47: each register by the turn, the commands and the host writes that change it. -/
theorem registersHaveOnlyTheirWriters : Obligations.RegistersHaveOnlyTheirWriters := by
  intro s t hstep
  rcases step_cases hstep with ⟨-, rfl⟩ | ⟨rest, ha, rfl⟩ | ⟨id, reg, rest, -, -, rfl⟩ |
    ⟨id, f, x, rest, ha, hreg, rfl⟩ | ⟨id, f, b, rest, ha, hreg, rfl⟩ | ⟨w, i, rest, ha, hw, run⟩ | ⟨w, e, rest, ha, -, rfl⟩
  · refine ⟨fun h => ?_, fun h => ?_, fun h => ?_⟩
    · obtain ⟨sub, d, hp, answered⟩ := transportTurn_t_changed h
      exact .inr (.inr (.inr ⟨.inr ⟨sub, hp⟩, d, answered⟩))
    · obtain ⟨todo, sub, d, hp, reads, answered⟩ := transportTurn_r_changed h
      exact .inr (.inr (.inr (.inr ⟨.inr (.inr ⟨todo, sub, hp, reads⟩), d, answered⟩)))
    · obtain ⟨todo, sub, a, hp, answered⟩ := transportTurn_status_changed h
      exact .inr (.inr ⟨⟨todo, sub, hp⟩, a, answered⟩)
  · have reset : takes s .reset := ⟨rest, ha⟩
    exact ⟨fun _ => .inl reset, fun _ => .inl reset, fun _ => .inl reset⟩
  · exact ⟨fun h => absurd rfl h, fun h => absurd rfl h, fun h => absurd rfl h⟩
  · exact ⟨fun _ => .inr (.inl ⟨id, f, x, hreg, rest, ha⟩), fun h => absurd rfl h, fun h => absurd rfl h⟩
  · exact ⟨fun h => absurd rfl h, fun _ => .inr (.inl ⟨id, f, b, hreg, rest, ha⟩), fun h => absurd rfl h⟩
  · have command : takes s (.hcmd w) := ⟨rest, ha⟩
    refine ⟨fun h => ?_, fun h => ?_, fun _ => .inr (.inl ⟨w, command⟩)⟩ <;>
      rw [(decodeWord_ok_iff w i).1 hw] at command
    · rcases exec_t_changed run h with rfl | ⟨rfl, answered⟩
      · exact .inr (.inr (.inl command))
      · exact .inr (.inr (.inr ⟨.inl command, answered⟩))
    · rcases exec_r_changed run h with rfl | rfl | ⟨rfl | rfl, answered⟩
      · exact .inr (.inr (.inl command))
      · exact .inr (.inr (.inr (.inl command)))
      · exact .inr (.inr (.inr (.inr ⟨.inl command, answered⟩)))
      · exact .inr (.inr (.inr (.inr ⟨.inr (.inl command), answered⟩)))
  · exact ⟨fun h => absurd rfl h, fun h => absurd rfl h, fun _ => .inr (.inl ⟨w, rest, ha⟩)⟩

end Sys2Proof
end

section
/-! The bus commands again (41_bus_sequencer.md): what one leaves waiting and what it leaves alone, who submits, what
an answer ends, what a read forgets, and a time set and read back. -/

namespace Sys2Proof.Machine

/-! ### What a bus command leaves behind (R86, R90) -/

/-- A bus command whose answer is not at hand: in `WAIT` with its submission in flight, every register as before. -/
theorem busTransaction_waits {s : State} (todo : Pending) (sub : Submission) (h : ∀ a, ¬ answers s a) :
    (busTransaction todo sub s).phase = .wait todo sub ∧ (busTransaction todo sub s).r = s.r ∧
      (busTransaction todo sub s).t = s.t ∧ (busTransaction todo sub s).status = s.status ∧
      (busTransaction todo sub s).buf = (if todo.reads then none else s.buf) ∧
      (busTransaction todo sub s).history = s.history ++ [.submit sub] := by
  rw [busTransaction_noAnswer todo sub h]
  simp [submit_buf]

/-- The frame of every bus command, whatever the transport does. -/
theorem busTransaction_frame (s : State) (todo : Pending) (sub : Submission) :
    (busTransaction todo sub s).inbox = s.inbox ∧ (busTransaction todo sub s).returned = s.returned ∧
      (busTransaction todo sub s).transport = s.transport.tail ∧
      ((busTransaction todo sub s).phase ≠ .idle → (busTransaction todo sub s).status = s.status) ∧
      ∃ more, (busTransaction todo sub s).history = s.history ++ more := by
  rcases busTransaction_cases s todo sub with ⟨a, rest, ht, h⟩ | ⟨-, h⟩ <;> rw [h]
  · simp [ht]
  · simp

/-- A write leaves every register and the buffer as they are, whatever the transport does. -/
theorem busTransaction_write_frame (s : State) (sub : Submission) :
    (busTransaction .write sub s).t = s.t ∧ (busTransaction .write sub s).r = s.r ∧
      (busTransaction .write sub s).buf = s.buf := by
  rcases busTransaction_cases s .write sub with ⟨a, rest, -, h⟩ | ⟨-, h⟩ <;> rw [h]
  · cases a <;> exact ⟨rfl, rfl, rfl⟩
  · exact ⟨rfl, rfl, rfl⟩

/-- A read of the raw registers leaves `T`, and `R` holds what it held or what was read. -/
theorem busTransaction_readRaw_frame (s : State) (sub : Submission) :
    (busTransaction .readRaw sub s).t = s.t ∧
      ((busTransaction .readRaw sub s).r = s.r ∨ ∃ d, answers s (.ok d) ∧ (busTransaction .readRaw sub s).r = d) := by
  rcases busTransaction_cases s .readRaw sub with ⟨a, rest, ht, h⟩ | ⟨-, h⟩ <;> rw [h]
  · cases a with
    | ok d => exact ⟨rfl, .inr ⟨d, answers_iff.2 ⟨rest, ht⟩, rfl⟩⟩
    | fail => exact ⟨rfl, .inl rfl⟩
  · exact ⟨rfl, .inl rfl⟩

/-- A read of the time changes `T` or `R` only when the transport answers `OK`. -/
theorem busTransaction_readTime_frame (s : State) (sub : Submission) :
    ((busTransaction .readTime sub s).t = s.t ∧ (busTransaction .readTime sub s).r = s.r) ∨
      ∃ d, answers s (.ok d) := by
  by_cases h : ∃ d, answers s (.ok d)
  · exact .inr h
  · exact .inl ⟨by_contra fun ht => h (busTransaction_t_changed ht).2,
      by_contra fun hr => h (busTransaction_r_changed hr).2⟩

/-! ### Who submits (R56, R86) -/

/-- Every command submits nothing or one of the block's submissions; the four bus commands are those that do. -/
theorem exec_submissions {s t : State} {i : Instr} (run : exec i s = .next t) :
    submissionsOf t.history = submissionsOf s.history ∨
      (i = .rdreg ∨ i = .wrreg ∨ i = .rdtime ∨ i = .wrtime) ∧
        ∃ sub, madeByBlock sub ∧ submissionsOf t.history = submissionsOf s.history ++ [sub] := by
  cases i <;> cases run
  case dec => exact .inl rfl
  case enc => exact .inl rfl
  case rdreg => exact .inr ⟨by simp, _, .inl rfl, busTransaction_submissions ..⟩
  case rdtime => exact .inr ⟨by simp, _, .inl rfl, busTransaction_submissions ..⟩
  case wrreg => exact .inr ⟨by simp, _, .inr ⟨_, rfl⟩, busTransaction_submissions ..⟩
  case wrtime => exact .inr ⟨by simp, _, .inr ⟨_, rfl⟩, busTransaction_submissions ..⟩

/-! ### What a transaction forgets (R25) -/

/-- The end of a read of the time overwrites both files, `STATUS` and the buffer. -/
theorem busTransaction_readTime_forgets {s : State} {d : Image} (sub : Submission) (h : answers s (.ok d))
    (t : Fields Word) (r : Image) (c : Byte) (b : Option Image) :
    busTransaction .readTime sub { s with t := t, r := r, status := c, buf := b } = busTransaction .readTime sub s := by
  obtain ⟨rest, ht⟩ := answers_iff.1 h
  exact (busTransaction_answer (s := { s with t := t, r := r, status := c, buf := b }) .readTime sub ht).trans
    (busTransaction_answer .readTime sub ht).symm

theorem busTransaction_readRaw_forgets {s : State} {d : Image} (sub : Submission) (h : answers s (.ok d))
    (r : Image) (c : Byte) (b : Option Image) :
    busTransaction .readRaw sub { s with r := r, status := c, buf := b } = busTransaction .readRaw sub s := by
  obtain ⟨rest, ht⟩ := answers_iff.1 h
  exact (busTransaction_answer (s := { s with r := r, status := c, buf := b }) .readRaw sub ht).trans
    (busTransaction_answer .readRaw sub ht).symm

/-- The end of every transaction overwrites `STATUS`. -/
theorem busTransaction_forgets_status {s : State} {a : Answer} (todo : Pending) (sub : Submission) (h : answers s a)
    (c : Byte) : busTransaction todo sub { s with status := c } = busTransaction todo sub s := by
  obtain ⟨rest, ht⟩ := answers_iff.1 h
  have after : complete todo a ((submit todo sub { s with status := c }).setTransport rest) =
      complete todo a ((submit todo sub s).setTransport rest) := by
    cases a <;> cases todo <;> rfl
  exact (busTransaction_answer (s := { s with status := c }) todo sub ht).trans
    (after.trans (busTransaction_answer todo sub ht).symm)

theorem exec_forgets_status {s : State} {a : Answer} (h : answers s a) (i : Instr) (c : Byte) :
    exec i { s with status := c } = exec i s := by
  cases i
  case dec => rfl
  case enc => rfl
  case rdreg => exact congrArg Host.Outcome.next (busTransaction_forgets_status _ _ h c)
  case wrreg => exact congrArg Host.Outcome.next (busTransaction_forgets_status _ _ h c)
  case rdtime => exact congrArg Host.Outcome.next (busTransaction_forgets_status _ _ h c)
  case wrtime =>
    have encoded : answers (s.setR (encodeTime s.t)) a := h
    exact congrArg Host.Outcome.next (busTransaction_forgets_status _ _ encoded c)

/-! ### How a waiting operation ends (R90, R135) -/

theorem step_answer {s : State} {todo : Pending} {sub : Submission} {a : Answer} {rest : List Move}
    (hp : s.phase = .wait todo sub) (hr : noResetNext s) (ht : s.transport = .answer a :: rest) :
    step s = .next (complete todo a (s.setTransport rest)) := by
  rw [step_wait hp hr, transportTurn_answer hp ht]

/-- The moves that are no answer are used up, and the answer completes the operation in flight. -/
theorem run_answer {s : State} {todo : Pending} {sub : Submission} {quiet rest : List Move} {a : Answer}
    (hp : s.phase = .wait todo sub) (hr : noResetNext s) (hq : neverAnswers quiet)
    (ht : s.transport = quiet ++ .answer a :: rest) :
    Host.Core.run core (quiet.length + 1) s = .next (complete todo a (s.setTransport rest)) := by
  have waited := run_wait quiet.length hp hr (by rw [ht, List.take_left]; exact hq)
  rw [ht, List.drop_left] at waited
  have turn : step (s.setTransport (.answer a :: rest)) = .next (complete todo a (s.setTransport rest)) :=
    step_answer (s := s.setTransport (.answer a :: rest)) hp hr rfl
  exact (run_add waited 1).trans (run_of_step turn 0)

/-! ### A time set and read back (R91) -/

/-- `STATUS` 0 at the end says that the transport answered `OK`. -/
theorem exists_ok_of_endCode {a : Answer} (h : (endCode a).byte = 0x00#8) : ∃ d, a = .ok d := by
  cases a with
  | ok d => exact ⟨d, rfl⟩
  | fail => exact absurd h (by decide)

/-- A device that follows a successful write and then a successful read returned the bytes written. -/
theorem eq_of_deviceConsistent_write_read {chip : Option Image} {m : WrMode} {v d : Image}
    (h : deviceConsistent chip none
      [.submit (writeSubmission m v), .complete .ok none, .submit readSubmission, .complete .ok (some d)]) : d = v := by
  simpa [deviceConsistent] using h

end Sys2Proof.Machine

/-! ### The statements -/

namespace Sys2Proof

open Machine

/-- Settles O12: each of the two writes its destination file and `STATUS` alone. -/
theorem codecCommandsFrame : Obligations.CodecCommandsFrame := by
  refine fun s t => ⟨?_, ?_, ?_⟩
  · rintro ⟨⟩; rfl
  · rintro ⟨⟩; rfl
  · rintro (⟨⟨⟩⟩ | ⟨⟨⟩⟩) <;> exact ⟨rfl, rfl, rfl, rfl, rfl, rfl⟩

/-- Settles O21: the descriptor lists are written out, and either form of a write carries the same bytes. -/
theorem submissionsWrittenOut : Obligations.SubmissionsWrittenOut :=
  ⟨rfl, fun _ => rfl, fun _ => rfl, fun _ => rfl⟩

/-- Settles O26: each bus command is a transaction that waits; `WRTIME` is one from the `R` it has written. -/
theorem busCommandsWaitForTheAnswer : Obligations.BusCommandsWaitForTheAnswer := by
  refine fun s h => ⟨?rdreg, ?rdtime, ?wrreg, ?wrtime⟩
  case rdreg => exact ⟨_, rfl, busTransaction_waits .readRaw readSubmission h⟩
  case rdtime => exact ⟨_, rfl, busTransaction_waits .readTime readSubmission h⟩
  case wrreg =>
    obtain ⟨phase, r, t, status, -, history⟩ := busTransaction_waits .write (writeSubmission Config.wrMode s.r) h
    exact ⟨_, rfl, phase, r, t, status, history⟩
  case wrtime =>
    obtain ⟨phase, r, t, status, -, history⟩ := busTransaction_waits (s := s.setR (encodeTime s.t)) .write
      (writeSubmission Config.wrMode (encodeTime s.t)) h
    refine ⟨_, rfl, ?_, r, t, status, ?_⟩ <;> rw [r]
    · exact phase
    · exact history

/-- Settles O27: the frame of each kind of transaction, and the one that all have. -/
theorem busCommandsFrame : Obligations.BusCommandsFrame := by
  refine fun s t => ⟨?rdreg, ?wrreg, ?rdtime, ?wrtime, ?all⟩
  case rdreg => rintro ⟨⟩; exact busTransaction_readRaw_frame ..
  case wrreg => rintro ⟨⟩; exact busTransaction_write_frame ..
  case rdtime => rintro ⟨⟩; exact busTransaction_readTime_frame ..
  case wrtime =>
    rintro ⟨⟩
    obtain ⟨tt, -, buf⟩ := busTransaction_write_frame (s.setR (encodeTime s.t)) _
    exact ⟨tt, buf⟩
  case all =>
    rintro (⟨⟨⟩⟩ | ⟨⟨⟩⟩ | ⟨⟨⟩⟩ | ⟨⟨⟩⟩)
    · exact busTransaction_frame ..
    · exact busTransaction_frame ..
    · exact busTransaction_frame ..
    · exact busTransaction_frame (s.setR (encodeTime s.t)) ..

/-- Settles O29: only a command that the open port takes can submit, and the words of those that do are four. -/
theorem onlyBusCommandsSubmit : Obligations.OnlyBusCommandsSubmit := by
  intro s t hstep
  rcases step_cases hstep with ⟨-, rfl⟩ | ⟨rest, -, rfl⟩ | ⟨id, reg, rest, -, -, rfl⟩ | ⟨id, f, x, rest, -, -, rfl⟩ |
    ⟨id, f, b, rest, -, -, rfl⟩ | ⟨w, i, rest, ha, hw, run⟩ | ⟨w, e, rest, -, -, rfl⟩
  · exact .inl (transportTurn_submissions s)
  · exact .inl rfl
  · exact .inl rfl
  · exact .inl rfl
  · exact .inl rfl
  · rw [decodeWord_ok_iff] at hw
    refine (exec_submissions run).imp_right fun ⟨bus, sub, made, submitted⟩ => ⟨w, sub, ⟨rest, ha⟩, ?_, made, submitted⟩
    rcases bus with rfl | rfl | rfl | rfl <;> subst hw <;> decide
  · exact .inl rfl

/-- Settles O32: the run to the answer, and the registers that the completion leaves. -/
theorem answeredOperationCompletes : Obligations.AnsweredOperationCompletes := by
  intro s todo sub quiet rest a hp hr hq ht
  refine ⟨_, run_answer hp hr hq ht, complete_phase .., complete_transport .., complete_inbox ..,
    complete_returned .., ?_, ?_, ?_⟩
  · rw [complete_history, submissionsOf_record_completion, setTransport_history]
  · rintro d rfl
    exact ⟨complete_status .., complete_r .., complete_t ..⟩
  · rintro rfl
    exact ⟨complete_status .., complete_r .., complete_t ..⟩

/-- Settles O34: what the end of a transaction overwrites. -/
theorem readsForgetTheOldRegisters : Obligations.ReadsForgetTheOldRegisters := by
  refine fun s t r c b => ⟨fun d h => ⟨?_, ?_⟩, fun i a h => exec_forgets_status h i c⟩
  · exact congrArg Host.Outcome.next (busTransaction_readTime_forgets readSubmission h t r c b)
  · exact congrArg Host.Outcome.next (busTransaction_readRaw_forgets readSubmission h r c b)

/-- Settles O35: both transactions ended `OK`, so the device gave back the encoded image, which decodes to the time. -/
theorem setThenReadRestoresTheTime : Obligations.SetThenReadRestoresTheTime := by
  intro s u1 s1 u2 s2 n m a b chip contract ha written run1 ok1 hb read run2 ok2 device
  cases written
  cases read
  obtain ⟨t1, ran1, -, status1, history1, r1, -⟩ := busTransaction_ends .write
    (writeSubmission Config.wrMode (encodeTime s.t)) (answersAfter_setR (encodeTime s.t) ha)
  obtain rfl : t1 = s1 := by cases ran1.symm.trans run1; rfl
  obtain ⟨t2, ran2, -, status2, history2, r2, tt2⟩ := busTransaction_ends .readTime readSubmission hb
  obtain rfl : t2 = s2 := by cases ran2.symm.trans run2; rfl
  obtain ⟨d, rfl⟩ := exists_ok_of_endCode (status2.symm.trans ok2)
  obtain ⟨e, rfl⟩ := exists_ok_of_endCode (status1.symm.trans ok1)
  rw [history2, history1, setR_history, List.append_assoc, List.drop_left] at device
  have back : d = encodeTime s.t := eq_of_deviceConsistent_write_read device
  rw [tt2, r2, r1]
  subst back
  exact ⟨decodeToT_encodeTime contract, rfl⟩

end Sys2Proof
end

section
/-! The host port and the reset event (10_state.md, 42_calendar_ops.md section 2, 70_reset_and_hazards.md): which ids
name a register, which actions are refused, the port closed, a whole file loaded, and reset. -/

namespace Sys2Proof.Machine

/-! ### The set of register ids (R13) -/

theorem fieldIndex_of_fieldAt {n : Nat} {f : Field} (h : fieldAt n = some f) : n = fieldIndex f := by
  unfold fieldAt at h
  split at h <;> cases h <;> rfl

theorem fieldAt_eq_none_iff (n : Nat) : fieldAt n = none ↔ 7 ≤ n := by
  refine ⟨fun h => ?_, fun h => ?_⟩
  · by_contra low
    interval_cases n <;> cases h
  · obtain ⟨k, rfl⟩ := Nat.exists_eq_add_of_le' h
    rfl

/-- An id names at most one register, and a register has one id. -/
theorem regOf_eq_some_iff (id : Nat) (reg : RegId) : regOf id = some reg ↔ id = regNumber reg := by
  refine ⟨fun h => ?_, fun h => ?_⟩
  · unfold regOf at h
    split at h
    · obtain ⟨f, hf, rfl⟩ := Option.map_eq_some_iff.1 h
      rw [fieldIndex_of_fieldAt hf, regNumber, Nat.zero_add]
    · split at h
      · obtain ⟨f, hf, rfl⟩ := Option.map_eq_some_iff.1 h
        rw [regNumber, ← fieldIndex_of_fieldAt hf]
        omega
      · split at h <;> cases h
        assumption
  · subst h
    cases reg with
    | t f => rw [regNumber, Nat.zero_add, regOf_t]
    | r f => exact regOf_r f
    | status => rfl

theorem regOf_eq_none_iff (id : Nat) : regOf id = none ↔ id = 0x07 ∨ id = 0x0F ∨ 0x11 ≤ id := by
  unfold regOf
  split
  · rw [Option.map_eq_none_iff, fieldAt_eq_none_iff]
    omega
  · split
    · rw [Option.map_eq_none_iff, fieldAt_eq_none_iff]
      omega
    · split <;> simp <;> omega

/-! ### The actions that are refused (R13, R99, R100) -/

theorem step_hwr_noRegister {s : State} {id : Nat} {v : RegValue} {rest : List Action} (hp : s.phase = .idle)
    (hi : s.inbox = .hwr id v :: rest) (hreg : regOf id = none) : step s = .refused (.noSuchRegister id) := by
  simp only [step_idle hp hi, performAction, hostWrite, hreg]

theorem step_hwr_t_byte {s : State} {id : Nat} {f : Field} {b : Byte} {rest : List Action} (hp : s.phase = .idle)
    (hi : s.inbox = .hwr id (.byte b) :: rest) (hreg : regOf id = some (.t f)) :
    step s = .refused (.valueNotOfWidth id) := by
  simp only [step_idle hp hi, performAction, hostWrite, hreg]

theorem step_hwr_r_word {s : State} {id : Nat} {f : Field} {x : Word} {rest : List Action} (hp : s.phase = .idle)
    (hi : s.inbox = .hwr id (.word x) :: rest) (hreg : regOf id = some (.r f)) :
    step s = .refused (.valueNotOfWidth id) := by
  simp only [step_idle hp hi, performAction, hostWrite, hreg]

/-- A command is never refused, whatever its word. -/
theorem hostCommand_next (w : Byte) (s : State) : ∃ t, hostCommand w s = .next t := by
  unfold hostCommand
  split
  · exact exec_next _ s
  · exact ⟨_, rfl⟩

/-- The port refuses an action exactly when it is ill formed, whatever the state. -/
theorem performAction_refused_iff (a : Action) (s : State) :
    (∃ why, performAction a s = .refused why) ↔ a.wellFormed = false := by
  cases a with
  | hrd id =>
    rw [performAction, hostRead, Action.wellFormed]
    cases regOf id <;> simp
  | hwr id v =>
    rcases hreg : regOf id with _ | ⟨_ | _ | _⟩ <;> cases v <;>
      simp [performAction, hostWrite, Action.wellFormed, hreg]
  | hcmd w =>
    obtain ⟨t, h⟩ := hostCommand_next w s
    simp [performAction, h, Action.wellFormed]
  | reset => simp [performAction, Action.wellFormed]

/-! ### A whole file loaded (R58) -/

/-- The host write of a value to a position, in the file of the value's width. -/
def writeLine : Field × RegValue → Action
  | (f, .word x) => .hwr (regNumber (.t f)) (.word x)
  | (f, .byte b) => .hwr (regNumber (.r f)) (.byte b)

/-- The state that such a write leaves. -/
def afterWrite (s : State) : Field × RegValue → State
  | (f, .word x) => writeT s f x
  | (f, .byte b) => writeR s f b

theorem step_writeLine {s : State} {w : Field × RegValue} {rest : List Action} (hp : s.phase = .idle)
    (hi : s.inbox = writeLine w :: rest) : step s = .next (afterWrite (s.setInbox rest) w) := by
  obtain ⟨f, _ | _⟩ := w
  · exact step_hwr_t hp hi ((regOf_eq_some_iff _ _).2 rfl)
  · exact step_hwr_r hp hi ((regOf_eq_some_iff _ _).2 rfl)

/-- A host write keeps the port open and leaves the actions to come. -/
theorem afterWrite_phase (s : State) (w : Field × RegValue) : (afterWrite s w).phase = s.phase := by
  obtain ⟨f, _ | _⟩ := w <;> rfl

theorem afterWrite_inbox (s : State) (w : Field × RegValue) : (afterWrite s w).inbox = s.inbox := by
  obtain ⟨f, _ | _⟩ := w <;> rfl

theorem afterWrite_setInbox (s : State) (w : Field × RegValue) (l : List Action) :
    (afterWrite s w).setInbox l = afterWrite (s.setInbox l) w := by
  obtain ⟨f, _ | _⟩ := w <;> rfl

/-- Host writes in a row are taken one a step, and each finds what those before it have written. -/
theorem run_writeLines (ws : List (Field × RegValue)) {s : State} {rest : List Action} (hp : s.phase = .idle)
    (hi : s.inbox = ws.map writeLine ++ rest) :
    Host.Core.run core ws.length s = .next (ws.foldl afterWrite (s.setInbox rest)) := by
  induction ws generalizing s with
  | nil =>
    change s.inbox = rest at hi
    subst hi
    rfl
  | cons w ws ih =>
    have next := step_writeLine (rest := ws.map writeLine ++ rest) hp hi
    have later := ih (s := afterWrite (s.setInbox (ws.map writeLine ++ rest)) w)
      ((afterWrite_phase ..).trans hp) (afterWrite_inbox ..)
    rw [afterWrite_setInbox] at later
    exact (run_of_step next _).trans later

/-! ### Nothing to do (R120), and reset (R26, R120, R121) -/

theorem transportTurn_idle {s : State} (hp : s.phase = .idle) : transportTurn s = s := by
  rw [transportTurn, hp]

/-- With the port open and no action to come, the block does nothing. -/
theorem step_idle_nil {s : State} (hp : s.phase = .idle) (hi : s.inbox = []) : step s = .next s := by
  have none : acceptedAction s = none := by simp [acceptedAction, hp, hi]
  rw [step, machineStep, none, transportTurn_idle hp]

/-- In `WAIT` a late answer is used up and changes nothing else. -/
theorem transportTurn_late {s : State} {todo : Pending} {sub : Submission} {a : Answer} {rest : List Move}
    (hp : s.phase = .wait todo sub) (ht : s.transport = .late a :: rest) : transportTurn s = s.setTransport rest := by
  simp [transportTurn, hp, ht]

theorem reset_registers (f : Field) : State.reset.t.get f = Config.tInit f ∧ State.reset.r.get f = Config.rInit f := by
  cases f <;> exact ⟨rfl, rfl⟩

end Sys2Proof.Machine

/-! ### The statements -/

namespace Sys2Proof

open Machine

/-- Settles O36: the ids of each file are its block of seven, and the three gaps name none. -/
theorem registerIdsAreClosed : Obligations.RegisterIdsAreClosed :=
  ⟨regOf_eq_some_iff, regOf_eq_none_iff, fun _ => ⟨Nat.zero_add _, rfl⟩, rfl, rfl, rfl, rfl, rfl, rfl, rfl, rfl⟩

/-- Settles O39: at the open port a step is the action performed; the refusals by the register that the id names. -/
theorem onlyIllFormedActionsAreRefused : Obligations.OnlyIllFormedActionsAreRefused := by
  refine ⟨fun s a rest hp hi => ?_, fun s id v rest hp hreg hi => ?_,
    fun s f b x rest hp => ⟨fun hi => ?_, fun hi => ?_⟩⟩
  · rw [step_idle hp hi]
    exact performAction_refused_iff a _
  · rcases hi with hi | hi
    · exact step_hrd_noRegister hp hi hreg
    · exact step_hwr_noRegister hp hi hreg
  · exact step_hwr_t_byte hp hi (regOf_t f)
  · exact step_hwr_r_word hp hi (regOf_r f)

/-- Settles O40: with no reset next the step is the transport's turn, which uses up a move or takes the answer. -/
theorem hostPortIsClosedWhileWaiting : Obligations.HostPortIsClosedWhileWaiting := by
  intro s todo sub hp hr
  obtain ⟨inbox, returned⟩ := transportTurn_hostPort s
  refine ⟨_, step_wait hp hr, inbox, returned, ?_⟩
  rcases transportTurn_quiet_or_answer s with ⟨l, quiet, turn⟩ | ⟨_, _, a, rest, -, answered, turn⟩ <;> rw [turn]
  · have waits : s.phase ≠ .idle := by simp [hp]
    have unanswered : ¬ ∃ a, answers s a := not_exists.2 (quiet.resolve_left waits)
    exact ⟨fun _ => ⟨rfl, rfl, rfl, rfl⟩, iff_of_false waits unanswered⟩
  · exact ⟨fun opened => absurd (complete_phase ..) opened, iff_of_true (complete_phase ..) ⟨a, answered⟩⟩

/-- Settles O42: each shorthand is the lines of its seven positions, which replace every value of the file. -/
theorem shorthandsLoadAWholeFile : Obligations.ShorthandsLoadAWholeFile := by
  refine ⟨fun s v rest hp hi => ?_, fun s v rest hp hi => ?_⟩
  · exact run_writeLines [(.sec, .word (toWord v.sec)), (.min, .word (toWord v.min)),
      (.hour, .word (toWord v.hour)), (.wday, .word (toWord v.wday)), (.mday, .word (toWord v.mday)),
      (.mon, .word (toWord v.mon)), (.year, .word (toWord v.year))] hp hi
  · exact run_writeLines [(.sec, .byte v.sec), (.min, .byte v.min), (.hour, .byte v.hour), (.wday, .byte v.wday),
      (.mday, .byte v.mday), (.mon, .byte v.mon), (.year, .byte v.year)] hp hi

/-- Settles O43: by the fields of `State.reset`. -/
theorem resetLeavesTheStatedValues : Obligations.ResetLeavesTheStatedValues :=
  ⟨rfl, rfl, rfl, rfl, reset_registers⟩

/-- Settles O44: a reset is taken in any phase, and a late answer is a move used up. -/
theorem resetEventInAnyPhase : Obligations.ResetEventInAnyPhase := by
  refine ⟨fun s rest hi => ?_, fun s todo sub a rest hp hr ht => ?_⟩
  · exact ⟨_, step_reset hi, rfl, rfl, rfl, reset_registers, rfl, rfl, rfl, fun hrest => step_idle_nil rfl hrest⟩
  · rw [step_wait hp hr, transportTurn_late hp ht]
    rfl

/-- Settles O45: the port is open after reset and nothing has happened at it. -/
theorem resetMeetsTheInvariant : Obligations.ResetMeetsTheInvariant := .of_idle rfl ⟨.ok, rfl⟩ trivial

end Sys2Proof
end
